-- ==== Sys2Proof/Word.lean ====
section
/-! DEFINITION. The machine's one word: a byte (spec/00_scope.md R8, spec/20_memory.md R28). -/

namespace Sys2Proof

/-- Every register, memory cell, address and immediate is 8 bits wide and unsigned (R8, R28). -/
abbrev Byte := BitVec 8

/-- `trunc8(v) = v mod 256` on the exact non-negative result of an operation (R8, R60). -/
def trunc8 (v : Nat) : Byte := BitVec.ofNat 8 v

@[simp] theorem toNat_trunc8 (v : Nat) : (trunc8 v).toNat = v % 256 := by
  simp [trunc8]

end Sys2Proof
end

