-- ==== Sys2Proof/Config.lean ====
section
/-! DEFINITION. What one CORE fixes and the spec leaves open: the parameters `OPCODE_MAP`, `OPC_ADDI` and
`LOGIC_MODE` (spec/00_scope.md R7), and the constants the source states (R6). -/

namespace Sys2Proof

/-- The 21 instructions of the dispatch table, as tags without operands (R3, R42). -/
inductive Op where
  | hlt | ret | push | pop | prn | call | jmp | jeq | jne | not
  | ldi | add | mul | mod | cmp | and | or | xor | shl | shr | addi
deriving DecidableEq, Repr

/-- `OPCODE_MAP` with `OPC_ADDI` as its last row: the opcode byte of each instruction (R7, R42, R43).
The machine carries the map as plain data, so that a statement about every state is a statement about every map. -/
structure OpcodeMap where
  hlt  : Byte
  ret  : Byte
  push : Byte
  pop  : Byte
  prn  : Byte
  call : Byte
  jmp  : Byte
  jeq  : Byte
  jne  : Byte
  not  : Byte
  ldi  : Byte
  add  : Byte
  mul  : Byte
  mod  : Byte
  cmp  : Byte
  and  : Byte
  or   : Byte
  xor  : Byte
  shl  : Byte
  shr  : Byte
  addi : Byte
deriving DecidableEq, Repr

/-- `LOGIC_MODE`: what AND and OR compute (R65). -/
inductive LogicMode where
  /-- AND is `(x == 0) ? x : y`, OR is `(x != 0) ? x : y`. The spec's default. -/
  | logical
  /-- Both compute `(x == 0) ? x : y`. -/
  | orAsAnd
  /-- AND is `x & y`, OR is `x | y`. -/
  | bitwise
deriving DecidableEq, Repr

/-- The parameters of the model (R7). No step changes them. -/
structure Params where
  opcodes   : OpcodeMap
  logicMode : LogicMode
deriving DecidableEq, Repr

namespace Config

/-- Which of the legal bytes `OPC_ADDI` is (R43, spec/92_eei_decisions.md D3: OPEN). 234 bytes are left once
the 20 other opcodes and the two bytes R45 names as illegal are taken out. A free value: it has no body, so
whatever is proved holds for each of them (notes/assumptions/2.md). -/
opaque opcAddiChoice : Fin 234

/-- Number of memory cells, of 8 bits each (R6, R25). -/
def memSize : Nat := 256

/-- Number of general registers (R6, R12). -/
def regCount : Nat := 8

/-- PC after reset (R6, R24). -/
def pcReset : Byte := 0x00

/-- SP after reset (R6, R24). -/
def spReset : Byte := 0xF4

/-- R0 to R7 after reset (R24, by decision D14). -/
def regReset : Byte := 0x00

/-- FL after reset (R24, by decision D14). -/
def flReset : Byte := 0x00

/-- What a memory cell that no `load` and no instruction has written holds (R24, by decision D14). -/
def memReset : Byte := 0x00

/-- IR, A and B after reset: the spec says "unspecified, and never read before being written" (R24).
DESIGN CHOICE zero (notes/assumptions/4.md). -/
def latchReset : Byte := 0x00

end Config

end Sys2Proof
end

