-- ==== Sys2Proof/WellFormed.lean ====
section
/-! DEFINITION. Well-formed instructions: every register-index operand names one of R0 to R7
(spec/30_encoding.md R40, spec/40_fetch_decode.md R50). -/

namespace Sys2Proof

/-- The byte of operand slot A, for the instructions whose slot A is a register index (the table of R50). -/
def Instr.regA : Instr → Option Byte
  | .hlt => none
  | .ret => none
  | .push a => some a
  | .pop a => some a
  | .prn a => some a
  | .call a => some a
  | .jmp a => some a
  | .jeq a => some a
  | .jne a => some a
  | .not a => some a
  | .ldi a _ => some a
  | .add a _ => some a
  | .mul a _ => some a
  | .mod a _ => some a
  | .cmp a _ => some a
  | .and a _ => some a
  | .or a _ => some a
  | .xor a _ => some a
  | .shl a _ => some a
  | .shr a _ => some a
  | .addi a _ => some a

/-- The byte of operand slot B, for the instructions whose slot B is a register index (the table of R50). -/
def Instr.regB : Instr → Option Byte
  | .hlt => none
  | .ret => none
  | .push _ => none
  | .pop _ => none
  | .prn _ => none
  | .call _ => none
  | .jmp _ => none
  | .jeq _ => none
  | .jne _ => none
  | .not _ => none
  | .ldi _ _ => none
  | .add _ b => some b
  | .mul _ b => some b
  | .mod _ b => some b
  | .cmp _ b => some b
  | .and _ b => some b
  | .or _ b => some b
  | .xor _ b => some b
  | .shl _ b => some b
  | .shr _ b => some b
  | .addi _ _ => none

/-- A register-index byte selects R0..R7 when its whole value is 0..7 (R40). -/
def indexInRange (x : Byte) : Bool := decide (x.toNat < 8)

/-- Every register-index operand of the instruction is 0..7. Immediates and ignored bytes are never checked (R50). -/
def Instr.WellFormed (i : Instr) : Bool :=
  i.regA.all indexInRange && i.regB.all indexInRange

end Sys2Proof
end

