-- ==== Sys2Proof/Decode.lean ====
section
/-! DEFINITION. The opcode map, the decoder and the encoder (spec/30_encoding.md R39 to R45,
spec/40_fetch_decode.md R49). -/

namespace Sys2Proof

/-- The instruction's tag in the dispatch table. -/
def Instr.op : Instr → Op
  | .hlt => .hlt
  | .ret => .ret
  | .push _ => .push
  | .pop _ => .pop
  | .prn _ => .prn
  | .call _ => .call
  | .jmp _ => .jmp
  | .jeq _ => .jeq
  | .jne _ => .jne
  | .not _ => .not
  | .ldi _ _ => .ldi
  | .add _ _ => .add
  | .mul _ _ => .mul
  | .mod _ _ => .mod
  | .cmp _ _ => .cmp
  | .and _ _ => .and
  | .or _ _ => .or
  | .xor _ _ => .xor
  | .shl _ _ => .shl
  | .shr _ _ => .shr
  | .addi _ _ => .addi

/-- The instruction's length in bytes, looked up by its tag: F0 is 1, F1 is 2, F2R and F2I are 3 (R39, R44). -/
def Op.length : Op → Nat
  | .hlt => 1
  | .ret => 1
  | .push => 2
  | .pop => 2
  | .prn => 2
  | .call => 2
  | .jmp => 2
  | .jeq => 2
  | .jne => 2
  | .not => 2
  | .ldi => 3
  | .add => 3
  | .mul => 3
  | .mod => 3
  | .cmp => 3
  | .and => 3
  | .or => 3
  | .xor => 3
  | .shl => 3
  | .shr => 3
  | .addi => 3

/-! ## The opcode map -/

/-- The opcode byte a map gives an instruction (R42). -/
def OpcodeMap.byteOf (m : OpcodeMap) : Op → Byte
  | .hlt => m.hlt
  | .ret => m.ret
  | .push => m.push
  | .pop => m.pop
  | .prn => m.prn
  | .call => m.call
  | .jmp => m.jmp
  | .jeq => m.jeq
  | .jne => m.jne
  | .not => m.not
  | .ldi => m.ldi
  | .add => m.add
  | .mul => m.mul
  | .mod => m.mod
  | .cmp => m.cmp
  | .and => m.and
  | .or => m.or
  | .xor => m.xor
  | .shl => m.shl
  | .shr => m.shr
  | .addi => m.addi

/-- The first 20 rows of R42, whose opcodes `OPCODE_MAP` gives. -/
def mappedOps : List Op :=
  [.hlt, .ret, .push, .pop, .prn, .call, .jmp, .jeq, .jne, .not,
   .ldi, .add, .mul, .mod, .cmp, .and, .or, .xor, .shl, .shr]

/-- All 21 rows of R42. -/
def allOps : List Op := mappedOps ++ [.addi]

/-- The bytes R45 names as illegal whatever `OPC_ADDI` is: the LS-8 NOP and the LS-8 SUB. R88 says the same of 0x00. -/
def namedIllegal : List Byte := [0x00, 0xA1]

/-- A legal map: the 21 opcodes are distinct (R43, R45) and `OPC_ADDI` is none of the bytes R45 names as illegal
(DEDUCED, notes/assumptions/3.md). -/
def OpcodeMap.wf (m : OpcodeMap) : Bool :=
  decide (allOps.map m.byteOf).Nodup && !(namedIllegal.contains m.addi)

/-- The dispatch multiplexer: the row whose opcode equals the whole byte, mask 0xFF (R42, R44, R49). -/
def OpcodeMap.lookup (m : OpcodeMap) (x : Byte) : Option Op :=
  match mappedOps.find? (fun o => m.byteOf o == x) with
  | some o => some o
  | none => if namedIllegal.contains x then none else if m.addi == x then some .addi else none

/-! ## Decoding -/

/-- Why bytes are not an instruction. -/
inductive DecodeError where
  /-- No row of the map has this opcode byte (R45, R49). -/
  | unknownOpcode (x : Byte)
  /-- The list ends before the instruction does; never so for the three bytes a fetch reads (R48). -/
  | truncated
deriving DecidableEq, Repr

/-- An F1 instruction: one operand byte follows the opcode (R39). -/
def takeOne (k : Byte → Instr) : List Byte → Except DecodeError (Instr × List Byte)
  | a :: rest => .ok (k a, rest)
  | [] => .error .truncated

/-- An F2R or F2I instruction: two operand bytes follow the opcode, in ascending address order (R28, R39). -/
def takeTwo (k : Byte → Byte → Instr) : List Byte → Except DecodeError (Instr × List Byte)
  | a :: b :: rest => .ok (k a b, rest)
  | _ => .error .truncated

/-- The operands of one row of the table, read from the bytes after the opcode (R39, R42). -/
def decodeOperands (o : Op) (rest : List Byte) : Except DecodeError (Instr × List Byte) :=
  match o with
  | .hlt => .ok (.hlt, rest)
  | .ret => .ok (.ret, rest)
  | .push => takeOne .push rest
  | .pop => takeOne .pop rest
  | .prn => takeOne .prn rest
  | .call => takeOne .call rest
  | .jmp => takeOne .jmp rest
  | .jeq => takeOne .jeq rest
  | .jne => takeOne .jne rest
  | .not => takeOne .not rest
  | .ldi => takeTwo .ldi rest
  | .add => takeTwo .add rest
  | .mul => takeTwo .mul rest
  | .mod => takeTwo .mod rest
  | .cmp => takeTwo .cmp rest
  | .and => takeTwo .and rest
  | .or => takeTwo .or rest
  | .xor => takeTwo .xor rest
  | .shl => takeTwo .shl rest
  | .shr => takeTwo .shr rest
  | .addi => takeTwo .addi rest

/-- The instruction that starts a list of bytes, and the bytes after it. A byte outside the instruction's
length is no part of it and stays in the rest (R39). -/
def decode (m : OpcodeMap) : List Byte → Except DecodeError (Instr × List Byte)
  | [] => .error .truncated
  | ir :: rest =>
    match m.lookup ir with
    | none => .error (.unknownOpcode ir)
    | some o => decodeOperands o rest

/-! ## Encoding -/

/-- The operand bytes of an instruction, in the order they follow the opcode (R39). -/
def Instr.operandBytes : Instr → List Byte
  | .hlt => []
  | .ret => []
  | .push a => [a]
  | .pop a => [a]
  | .prn a => [a]
  | .call a => [a]
  | .jmp a => [a]
  | .jeq a => [a]
  | .jne a => [a]
  | .not a => [a]
  | .ldi a imm => [a, imm]
  | .add a b => [a, b]
  | .mul a b => [a, b]
  | .mod a b => [a, b]
  | .cmp a b => [a, b]
  | .and a b => [a, b]
  | .or a b => [a, b]
  | .xor a b => [a, b]
  | .shl a b => [a, b]
  | .shr a b => [a, b]
  | .addi a imm => [a, imm]

/-- The bytes of an instruction under a map: opcode, then operands (R39, R42). -/
def encode (m : OpcodeMap) (i : Instr) : List Byte := m.byteOf i.op :: i.operandBytes

/-! ## The default parameters -/

/-- The default `OPCODE_MAP` with ADDI's byte left as an argument: the LS-8 values of R42. -/
def mapWithAddi (opcAddi : Byte) : OpcodeMap where
  hlt  := 0b00000001
  ret  := 0b00010001
  push := 0b01000101
  pop  := 0b01000110
  prn  := 0b01000111
  call := 0b01010000
  jmp  := 0b01010100
  jeq  := 0b01010101
  jne  := 0b01010110
  not  := 0b01101001
  ldi  := 0b10000010
  add  := 0b10100000
  mul  := 0b10100010
  mod  := 0b10100100
  cmp  := 0b10100111
  and  := 0b10101000
  or   := 0b10101010
  xor  := 0b10101011
  shl  := 0b10101100
  shr  := 0b10101101
  addi := opcAddi

/-- Whether a byte may be `OPC_ADDI`: it is no other opcode of the default map (R43) and not named illegal (R45). -/
def legalAddi (x : Byte) : Bool := (mapWithAddi x).wf

/-- The bytes `OPC_ADDI` may be, in ascending order. -/
def addiCandidates : List Byte := ((List.range 256).map (BitVec.ofNat 8)).filter legalAddi

/-- `OPC_ADDI`: one of the legal bytes, and nothing says which (D3: OPEN; notes/assumptions/2.md). -/
def opcAddi : Byte := addiCandidates.getD Config.opcAddiChoice.val 0x40

/-- The default map: the 20 values of R42 and the free `OPC_ADDI`. -/
def defaultOpcodeMap : OpcodeMap := mapWithAddi opcAddi

/-- The parameters the machine has after reset: the defaults of R7. -/
def defaultParams : Params := { opcodes := defaultOpcodeMap, logicMode := .logical }

/-! ## One instruction as a number -/

/-- Byte `k` of a table word, the first byte of the instruction being bits 7..0; bits from `nbits` up are 0. -/
def wordByte (nbits w k : Nat) : Byte := BitVec.ofNat 8 ((w % 2 ^ nbits) >>> (8 * k))

/-- The three bytes at an instruction's address that a table word stands for. -/
def wordBytes (nbits w : Nat) : List Byte := [wordByte nbits w 0, wordByte nbits w 1, wordByte nbits w 2]

/-- The instruction the decoder reads from a word numbered as spec/opcode_table.json numbers it, under the default map. -/
def decodeTableWord (nbits w : Nat) : Option Instr :=
  match decode defaultOpcodeMap (wordBytes nbits w) with
  | .ok (i, _) => some i
  | .error _ => none

end Sys2Proof
end

