-- ==== Sys2Proof/Machine/State.lean ====
section
/-! DEFINITION. The state of the CORE, the reasons a step can stop, and the state after reset
(spec/10_state.md R11 to R24). -/

namespace Sys2Proof.Machine

/-- R0 to R7, eight ordinary 8-bit registers with no alias, bank or hard-wired value (R12). -/
structure Regs where
  r0 : Byte
  r1 : Byte
  r2 : Byte
  r3 : Byte
  r4 : Byte
  r5 : Byte
  r6 : Byte
  r7 : Byte
deriving DecidableEq, Repr

/-- The number of a register (R12). -/
abbrev RegIdx := Fin 8

/-- The 256 cells (R25) as a sorted list of address and byte; a cell not listed holds `Config.memReset`. -/
abbrev Memory := List Host.Cell

/-- The halted values of the run status (R20, R87). -/
inductive HaltReason where
  /-- Code 2: HLT executed. -/
  | ok
  /-- Code 3: the fetched byte has no handler. -/
  | unknownOpcode
  /-- Code 4: a register-index operand is 8 or more. -/
  | outOfRange
  /-- Code 5: MOD with a zero divisor. -/
  | divByZero
deriving DecidableEq, Repr

/-- The run status (R20). -/
inductive Status where
  /-- Code 0: after reset; `load` is allowed and no instruction runs. -/
  | idle
  /-- Code 1: instructions execute one after another. -/
  | running
  /-- Codes 2 to 5: final until reset. -/
  | halted (why : HaltReason)
deriving DecidableEq, Repr

/-- One event of the output port (R55). -/
inductive OutEvent where
  /-- From PRN; the host prints it in decimal. -/
  | value (v : Byte)
  /-- From MOD with a zero divisor. -/
  | divByZero
deriving DecidableEq, Repr

/-- What the host can do to the CORE (R38, R47, R86). -/
inductive HostAction where
  | reset
  | load (bytes : List Byte)
  | run
deriving DecidableEq, Repr

/-- What the host is told of its action (R36, R94). -/
inductive HostReply where
  | accepted
  | refused
deriving DecidableEq, Repr

/-- Everything the spec gives the CORE (R11), its two ports, and the parameters (R7). -/
structure State where
  /-- R0 to R7 (R12). -/
  regs        : Regs
  /-- Program counter (R14). -/
  pc          : Byte
  /-- Stack pointer (R17). -/
  sp          : Byte
  /-- Flags: bit 0 E, bit 1 G, bit 2 L (R19). -/
  fl          : Byte
  /-- Run status (R20). -/
  status      : Status
  /-- The opcode latch IR (R22). -/
  ir          : Byte
  /-- The operand latch A (R22). -/
  latchA      : Byte
  /-- The operand latch B (R22). -/
  latchB      : Byte
  /-- The one memory, of code, data and stack (R25). -/
  mem         : Memory
  /-- The events the output port has sent, oldest first (R55). -/
  out         : List OutEvent
  /-- What the host will do next, oldest first: the reset, load and run ports as data (R47, R86). -/
  hostQueue   : List HostAction
  /-- What the host was told of its actions, oldest first (R36, R94). -/
  hostReplies : List HostReply
  /-- The model's parameters (R7); no step changes them. -/
  params      : Params
deriving DecidableEq, Repr

/-- Why a step stops with no next state. No instruction raises one: each error the CORE detects is a halted status
and so a next state (R85, R93). -/
inductive Fault where
  /-- Raised by `step` in IDLE when the host has nothing queued: no instruction runs in IDLE (R20). Safe: the
  machine waits, and nothing is claimed of a next state. -/
  | idle
  /-- Raised by `step` in a halted status when the host has nothing queued: a halted status has no step (R47, R94).
  Safe: the run is over, and nothing is claimed of a next state. -/
  | halted (why : HaltReason)
deriving DecidableEq, Repr

/-- Why an instruction has no meaning in the model. -/
inductive Refusal where
  /-- Raised by `exec` for an instruction whose meaning is not written yet; none is left. Safe: the model stops. -/
  | notModelled (mnemonic : String)
deriving DecidableEq, Repr

/-- All eight registers at their reset value (R24). -/
def Regs.reset : Regs where
  r0 := Config.regReset
  r1 := Config.regReset
  r2 := Config.regReset
  r3 := Config.regReset
  r4 := Config.regReset
  r5 := Config.regReset
  r6 := Config.regReset
  r7 := Config.regReset

/-- The machine right after reset (R24, R97): the output port is empty, memory lists nothing, and the host has done
nothing yet. The latches' values are the model's choice (notes/assumptions/4.md). -/
def State.reset : State where
  regs        := Regs.reset
  pc          := Config.pcReset
  sp          := Config.spReset
  fl          := Config.flReset
  status      := .idle
  ir          := Config.latchReset
  latchA      := Config.latchReset
  latchB      := Config.latchReset
  mem         := []
  out         := []
  hostQueue   := []
  hostReplies := []
  params      := defaultParams

end Sys2Proof.Machine
end

