-- ==== Sys2Proof/Machine/Ops.lean ====
section
/-! DEFINITION. The named operations over registers, memory, the ports and the run status (spec/00_scope.md R9),
and the halt every fault takes (spec/60_exceptions.md R93). -/

namespace Sys2Proof.Machine

/-- What an instruction or a step answers. -/
abbrev Result := Host.Outcome State Fault Refusal

/-! ## Registers -/

/-- `R[i]` of a register file. -/
def Regs.get (r : Regs) (i : RegIdx) : Byte :=
  match i with
  | 0 => r.r0
  | 1 => r.r1
  | 2 => r.r2
  | 3 => r.r3
  | 4 => r.r4
  | 5 => r.r5
  | 6 => r.r6
  | 7 => r.r7

/-- `R[i] <- v` on a register file. -/
def Regs.set (r : Regs) (i : RegIdx) (v : Byte) : Regs :=
  match i with
  | 0 => { r with r0 := v }
  | 1 => { r with r1 := v }
  | 2 => { r with r2 := v }
  | 3 => { r with r3 := v }
  | 4 => { r with r4 := v }
  | 5 => { r with r5 := v }
  | 6 => { r with r6 := v }
  | 7 => { r with r7 := v }

/-- `R[i]` reads general register i (R9). -/
def reg (s : State) (i : RegIdx) : Byte := s.regs.get i

/-- `R[i] <- v` writes general register i (R9). -/
def setReg (s : State) (i : RegIdx) (v : Byte) : State := { s with regs := s.regs.set i v }

/-- `PC <- v` (R9). -/
def setPc (s : State) (v : Byte) : State := { s with pc := v }

/-- `SP <- v` (R9). -/
def setSp (s : State) (v : Byte) : State := { s with sp := v }

/-- `FL <- v` (R9). -/
def setFl (s : State) (v : Byte) : State := { s with fl := v }

/-! ## Memory -/

/-- The byte a memory holds at an address. -/
def memRead : Memory → Nat → Byte
  | [], _ => Config.memReset
  | (k, v) :: m, a => if k = a then v else memRead m a

/-- A byte other than the reset value put in its place by address. -/
def memInsert : Memory → Nat → Byte → Memory
  | [], a, v => [(a, v)]
  | (k, w) :: m, a, v =>
    if a < k then (a, v) :: (k, w) :: m
    else if a = k then (a, v) :: m
    else (k, w) :: memInsert m a v

/-- A memory with a byte written; writing the reset value takes the entry out, so that equal memories are equal lists. -/
def memWrite (m : Memory) (a : Nat) (v : Byte) : Memory :=
  if v = Config.memReset then m.filter (fun c => c.1 != a) else memInsert m a v

/-- The canonical form from an address on: addresses strictly rise, each is below 256 (R25), none holds the reset value. -/
def Memory.wfFrom : Nat → Memory → Bool
  | _, [] => true
  | lo, (k, v) :: m =>
    decide (lo ≤ k) && decide (k < Config.memSize) && (v != Config.memReset) && Memory.wfFrom (k + 1) m

/-- The canonical form of memory. -/
def Memory.wf (m : Memory) : Bool := Memory.wfFrom 0 m

/-- `MemRead(addr, 1)`: every 8-bit address names a cell, so no access is out of range (R9, R26). -/
def readByte (s : State) (a : Byte) : Byte := memRead s.mem a.toNat

/-- `MemWrite(addr, 1, v)` (R9, R26). -/
def writeByte (s : State) (a v : Byte) : State := { s with mem := memWrite s.mem a.toNat v }

/-- Bytes written at ascending addresses from a cell number on (R36). -/
def memWriteFrom (m : Memory) (a : Nat) : List Byte → Memory
  | [] => m
  | v :: vs => memWriteFrom (memWrite m a v) (a + 1) vs

/-! ## The output port -/

/-- `emit(x)` sends one event; events are never lost or reordered (R9, R55). -/
def emit (s : State) (e : OutEvent) : State := { s with out := s.out ++ [e] }

/-! ## The run status and halting -/

/-- The numeric code of a halt reason (R20, R87). -/
def HaltReason.code : HaltReason → Nat
  | .ok => 2
  | .unknownOpcode => 3
  | .outOfRange => 4
  | .divByZero => 5

/-- The numeric code of a status (R20). -/
def Status.code : Status → Nat
  | .idle => 0
  | .running => 1
  | .halted why => why.code

/-- `raise Halt(reason)`: the status becomes the reason and nothing else changes (R9, R52, R93). It is what the CORE
has in place of taking an exception; there is no return from it but reset (R85, R94). -/
def raiseHalt (why : HaltReason) (s : State) : Result := .next { s with status := .halted why }

end Sys2Proof.Machine
end

