-- ==== Sys2Proof/Machine/Flags.lean ====
section
/-! DEFINITION. The flags register FL (spec/10_state.md R19, R21; spec/42_alu.md R64). -/

namespace Sys2Proof.Machine

/-- FL with only E set. -/
def flagEqual : Byte := 0b00000001

/-- FL with only G set. -/
def flagGreater : Byte := 0b00000010

/-- FL with only L set. -/
def flagLess : Byte := 0b00000100

/-- The whole byte CMP writes: an unsigned comparison of `x = R[a]` with `y = R[b]`, G when register a is greater
(R19, R64). -/
def compareFlags (x y : Byte) : Byte :=
  if x.toNat = y.toNat then flagEqual
  else if x.toNat > y.toNat then flagGreater
  else flagLess

/-- The test of JEQ and JNE: FL equals the E pattern exactly, which is no mask test (R21, R83, R84). -/
def equalTaken (s : State) : Bool := s.fl == flagEqual

end Sys2Proof.Machine
end

