-- ==== Sys2Proof/Machine/Operands.lean ====
section
/-! DEFINITION. Operand forms (spec/30_encoding.md R40, R41; spec/40_fetch_decode.md R50), the stack's addresses
(spec/20_memory.md R27) and the control-flow router (spec/44_control_flow.md R78). -/

namespace Sys2Proof.Machine

/-! ## Register-index operands -/

/-- The register an index byte selects, if its whole value is 0..7 (R40). -/
def regIndex (x : Byte) : Option RegIdx :=
  if h : x.toNat < 8 then some ⟨x.toNat, h⟩ else none

/-- The index byte of a register (R40). -/
def indexByte (d : RegIdx) : Byte := trunc8 d.val

/-- An instruction with a register index in slot A: the check comes before any effect (R50). -/
def withReg (a : Byte) (s : State) (k : RegIdx → Result) : Result :=
  match regIndex a with
  | some d => k d
  | none => raiseHalt .outOfRange s

/-- An instruction with register indices in both slots: A is checked before B (R50, R92). -/
def withRegs (a b : Byte) (s : State) (k : RegIdx → RegIdx → Result) : Result :=
  withReg a s fun d => withReg b s fun r => k d r

/-! ## Stack addresses -/

/-- `trunc8(SP - 1)`: the decremented SP, and the cell that PUSH and CALL write (R17, R27). -/
def pushAddress (s : State) : Byte := s.sp - 1

/-- The cell that POP and RET read: SP without decrement or increment (R27, R74). -/
def topAddress (s : State) : Byte := s.sp

/-- SP is decremented first, and the write uses the new SP (R51). -/
def pushByte (s : State) (v : Byte) : State := writeByte (setSp s (pushAddress s)) (pushAddress s) v

/-! ## The control-flow router -/

/-- The five sources of the next PC (R78). -/
inductive PcSelect where
  /-- `trunc8(P + 2)` -/
  | seq2
  /-- `trunc8(P + 3)` -/
  | seq3
  /-- `R[a]`, read in this step -/
  | reg (d : RegIdx)
  /-- `MemRead(SP, 1)` -/
  | stack
  /-- P, unchanged -/
  | hold
deriving DecidableEq, Repr

/-- The next PC that a source of the router gives in a state whose PC is the instruction's address (R15, R16, R78). -/
def routePc (sel : PcSelect) (s : State) : Byte :=
  match sel with
  | .seq2 => trunc8 (s.pc.toNat + 2)
  | .seq3 => trunc8 (s.pc.toNat + 3)
  | .reg d => reg s d
  | .stack => readByte s (topAddress s)
  | .hold => s.pc

/-- The address of the instruction after a CALL, which CALL stores (R80). -/
def returnAddress (s : State) : Byte := trunc8 (s.pc.toNat + 2)

end Sys2Proof.Machine
end

