-- ==== Sys2Proof/Machine/Alu.lean ====
section
/-! DEFINITION. The ALU (spec/42_alu.md): values on exact non-negative integers stored through `trunc8` (R60), then
the instructions. -/

namespace Sys2Proof.Machine

/-! ## Values -/

/-- `trunc8(x + y)` (R62, R73). -/
def aluAdd (x y : Byte) : Byte := trunc8 (x.toNat + y.toNat)

/-- `trunc8(x * y)` (R63). -/
def aluMul (x y : Byte) : Byte := trunc8 (x.toNat * y.toNat)

/-- What AND computes in each mode (R65, R66). -/
def aluAnd (mode : LogicMode) (x y : Byte) : Byte :=
  match mode with
  | .logical => if x = 0 then x else y
  | .orAsAnd => if x = 0 then x else y
  | .bitwise => x &&& y

/-- What OR computes in each mode (R65, R67). -/
def aluOr (mode : LogicMode) (x y : Byte) : Byte :=
  match mode with
  | .logical => if x = 0 then y else x
  | .orAsAnd => if x = 0 then x else y
  | .bitwise => x ||| y

/-- `x ^ y` (R68). -/
def aluXor (x y : Byte) : Byte := x ^^^ y

/-- `0xFF ^ x` (R69). -/
def aluNot (x : Byte) : Byte := 0xFF ^^^ x

/-- `trunc8(x << y)` with the whole 8-bit count (R70). -/
def aluShl (x y : Byte) : Byte := trunc8 (x.toNat <<< y.toNat)

/-- `x >> y` with the whole 8-bit count and zero fill (R71). -/
def aluShr (x y : Byte) : Byte := trunc8 (x.toNat >>> y.toNat)

/-- `x mod y`, unsigned, for a divisor other than zero (R72). -/
def aluMod (x y : Byte) : Byte := trunc8 (x.toNat % y.toNat)

/-! ## The ALU's contract -/

/-- `apply(operation, dest, src)` for every operation that writes its destination: both registers are read before the
write (R59). -/
def aluApply (f : Byte → Byte → Byte) (d r : RegIdx) (s : State) : State :=
  setPc (setReg s d (f (reg s d) (reg s r))) (routePc .seq3 s)

/-! ## Instructions -/

/-- ADD (R62). -/
def execAdd (a b : Byte) (s : State) : Result :=
  withRegs a b s fun d r => .next (aluApply aluAdd d r s)

/-- MUL (R63). -/
def execMul (a b : Byte) (s : State) : Result :=
  withRegs a b s fun d r => .next (aluApply aluMul d r s)

/-- CMP: writes all of FL and no register (R64). -/
def execCmp (a b : Byte) (s : State) : Result :=
  withRegs a b s fun d r => .next (setPc (setFl s (compareFlags (reg s d) (reg s r))) (routePc .seq3 s))

/-- AND, per `LOGIC_MODE` (R66). -/
def execAnd (a b : Byte) (s : State) : Result :=
  withRegs a b s fun d r => .next (aluApply (aluAnd s.params.logicMode) d r s)

/-- OR, per `LOGIC_MODE` (R67). -/
def execOr (a b : Byte) (s : State) : Result :=
  withRegs a b s fun d r => .next (aluApply (aluOr s.params.logicMode) d r s)

/-- XOR (R68). -/
def execXor (a b : Byte) (s : State) : Result :=
  withRegs a b s fun d r => .next (aluApply aluXor d r s)

/-- NOT: one operand; byte B is not checked (R69). -/
def execNot (a : Byte) (s : State) : Result :=
  withReg a s fun d => .next (setPc (setReg s d (aluNot (reg s d))) (routePc .seq2 s))

/-- SHL (R70). -/
def execShl (a b : Byte) (s : State) : Result :=
  withRegs a b s fun d r => .next (aluApply aluShl d r s)

/-- SHR (R71). -/
def execShr (a b : Byte) (s : State) : Result :=
  withRegs a b s fun d r => .next (aluApply aluShr d r s)

/-- MOD: the index checks come first; a zero divisor emits the report, then halts with nothing written (R72, R90, R92). -/
def execMod (a b : Byte) (s : State) : Result :=
  withRegs a b s fun d r =>
    if reg s r = 0 then raiseHalt .divByZero (emit s .divByZero) else .next (aluApply aluMod d r s)

/-- ADDI: the second value is the immediate byte (R73). -/
def execAddi (a imm : Byte) (s : State) : Result :=
  withReg a s fun d => .next (setPc (setReg s d (aluAdd (reg s d) imm)) (routePc .seq3 s))

end Sys2Proof.Machine
end

