-- ==== Sys2Proof/Machine/Control.lean ====
section
/-! DEFINITION. CALL, RET, JMP, JEQ and JNE (spec/44_control_flow.md). -/

namespace Sys2Proof.Machine

/-- CALL: pushes the return address and jumps to the register's value (R80). -/
def execCall (a : Byte) (s : State) : Result :=
  withReg a s fun d => .next (setPc (pushByte s (returnAddress s)) (routePc (.reg d) s))

/-- RET: jumps to the top cell's value and leaves SP as it is (R81). -/
def execRet (s : State) : Result := .next (setPc s (routePc .stack s))

/-- JMP (R82). -/
def execJmp (a : Byte) (s : State) : Result :=
  withReg a s fun d => .next (setPc s (routePc (.reg d) s))

/-- JEQ: the index is checked whether or not the jump is taken (R50, R83). -/
def execJeq (a : Byte) (s : State) : Result :=
  withReg a s fun d => .next (setPc s (routePc (if equalTaken s then .reg d else .seq2) s))

/-- JNE: the exact complement of JEQ (R50, R84). -/
def execJne (a : Byte) (s : State) : Result :=
  withReg a s fun d => .next (setPc s (routePc (if equalTaken s then .seq2 else .reg d) s))

end Sys2Proof.Machine
end

