-- ==== Sys2Proof/Machine/LoadPrintHalt.lean ====
section
/-! DEFINITION. LDI, PRN and HLT (spec/41_load_print_halt.md). -/

namespace Sys2Proof.Machine

/-- LDI: `R[a] <- b`, the immediate unchanged and unchecked (R56). -/
def execLdi (a imm : Byte) (s : State) : Result :=
  withReg a s fun d => .next (setPc (setReg s d imm) (routePc .seq3 s))

/-- PRN: emits the register's unsigned value (R57). -/
def execPrn (a : Byte) (s : State) : Result :=
  withReg a s fun d => .next (setPc (emit s (.value (reg s d))) (routePc .seq2 s))

/-- HLT: the successful end of a run; PC keeps the address of the HLT (R58). -/
def execHlt (s : State) : Result := raiseHalt .ok (setPc s (routePc .hold s))

end Sys2Proof.Machine
end

