-- ==== Sys2Proof/Machine/Stack.lean ====
section
/-! DEFINITION. POP and PUSH (spec/43_stack.md). -/

namespace Sys2Proof.Machine

/-- POP: reads the top cell and leaves SP as it is, the no-increment quirk of R74 (R76). -/
def execPop (a : Byte) (s : State) : Result :=
  withReg a s fun d => .next (setPc (setReg s d (readByte s (topAddress s))) (routePc .seq2 s))

/-- PUSH: the register is read, SP decremented, the cell at the new SP written (R77). -/
def execPush (a : Byte) (s : State) : Result :=
  withReg a s fun d => .next (setPc (pushByte s (reg s d)) (routePc .seq2 s))

end Sys2Proof.Machine
end

