-- ==== Sys2Proof/Machine/Fetch.lean ====
section
/-! DEFINITION. The fetch with its eager two-byte lookahead (spec/40_fetch_decode.md R48). -/

namespace Sys2Proof.Machine

/-- The address `k` bytes after PC, modulo 256 (R16, R26). -/
def pcPlus (s : State) (k : Nat) : Byte := trunc8 (s.pc.toNat + k)

/-- The three bytes a fetch reads, whichever the opcode needs (R48, R101). -/
def fetchBytes (s : State) : List Byte :=
  [readByte s (pcPlus s 0), readByte s (pcPlus s 1), readByte s (pcPlus s 2)]

/-- IR, A and B are loaded before the instruction has any effect (R22, R48). -/
def fetch (s : State) : State :=
  { s with
    ir := readByte s (pcPlus s 0)
    latchA := readByte s (pcPlus s 1)
    latchB := readByte s (pcPlus s 2) }

/-- The bytes the decoder sees: the latches, never a re-read of memory (R51). -/
def latchBytes (s : State) : List Byte := [s.ir, s.latchA, s.latchB]

/-- A state with three bytes stored where the next fetch reads, and RUNNING, as after a load and `run()`
(notes/assumptions/6.md). -/
def placeInstr (s : State) (b0 b1 b2 : Byte) : State :=
  let s1 := writeByte s (pcPlus s 0) b0
  let s2 := writeByte s1 (pcPlus s 1) b1
  { writeByte s2 (pcPlus s 2) b2 with status := .running }

end Sys2Proof.Machine
end

