-- ==== Sys2Proof/Machine/HostPort.lean ====
section
/-! DEFINITION. The host's three actions (spec/20_memory.md R36, R38; spec/40_fetch_decode.md R47; spec/70_reset_and_hazards.md R97). -/

namespace Sys2Proof.Machine

/-- The host is told what became of its action (R36, R94). -/
def reply (s : State) (r : HostReply) : State := { s with hostReplies := s.hostReplies ++ [r] }

/-- `load` writes bytes[i] to cell i; other cells keep their value (R36). -/
def loadImage (s : State) (bytes : List Byte) : State := { s with mem := memWriteFrom s.mem 0 bytes }

/-- `load(bytes)`: accepted in IDLE with at most 256 bytes, else refused with no change to the CORE (R36, R94). -/
def hostLoad (bytes : List Byte) (s : State) : State :=
  if s.status = .idle ∧ bytes.length ≤ Config.memSize then reply (loadImage s bytes) .accepted
  else reply s .refused

/-- `run()`: IDLE goes to RUNNING (R47); in a halted status it is refused with no change to the CORE (R94). While
RUNNING the spec does not say: refused with no change too, DESIGN CHOICE (notes/assumptions/13.md). -/
def hostRun (s : State) : State :=
  if s.status = .idle then reply { s with status := .running } .accepted else reply s .refused

/-- `reset`: any status goes to IDLE with the reset state and an empty output port (R47, R97). The parameters and what
belongs to the host stay. -/
def hostReset (s : State) : State :=
  reply { State.reset with hostQueue := s.hostQueue, hostReplies := s.hostReplies, params := s.params } .accepted

/-- One action of the host on the CORE. -/
def hostAct (act : HostAction) (s : State) : State :=
  match act with
  | .reset => hostReset s
  | .load bytes => hostLoad bytes s
  | .run => hostRun s

/-- The host's next queued action, taken when the CORE is not RUNNING (R47, R86; notes/assumptions/5.md). -/
def hostTurn (s : State) : Option State :=
  match s.hostQueue with
  | [] => none
  | act :: rest => some (hostAct act { s with hostQueue := rest })

end Sys2Proof.Machine
end

