-- ==== Sys2Proof/Machine/Engine.lean ====
section
/-! DEFINITION. The engine cycle and the run state machine (spec/40_fetch_decode.md R47, R52). -/

namespace Sys2Proof.Machine

/-- One instruction: fetch, dispatch, execute. An opcode with no handler changes only the status (R49, R52, R88).
Three bytes are always enough to decode, so the opcode is the only way decoding fails. -/
def instrStep (s : State) : Result :=
  match decode s.params.opcodes (latchBytes (fetch s)) with
  | .ok (i, _) => exec i (fetch s)
  | .error _ => raiseHalt .unknownOpcode (fetch s)

/-- The host's queued action where there is one; else the machine has no step. -/
def hostStep (noStep : Fault) (s : State) : Result :=
  match hostTurn s with
  | some t => .next t
  | none => .fault noStep

/-- RUNNING executes an instruction, with no other event between two of them; IDLE and the halted statuses have no
instruction step, and there the host acts (R47). -/
def engineStep (s : State) : Result :=
  match s.status with
  | .running => instrStep s
  | .idle => hostStep .idle s
  | .halted why => hostStep (.halted why) s

end Sys2Proof.Machine
end

