-- ==== Sys2Proof/Machine/Step.lean ====
section
/-! DEFINITION. One step of the machine, and the placing of one instruction where the next step fetches. -/

namespace Sys2Proof.Machine

/-- One step (spec/40_fetch_decode.md R47, R52). -/
def step (s : State) : Host.Outcome State Fault Refusal := engineStep s

/-- `s` with one instruction, given as the opcode table numbers its bits, stored where the next step fetches, and
RUNNING (notes/assumptions/6.md). -/
def State.withFetchWord (s : State) (nbits w : Nat) : State :=
  placeInstr s (wordByte nbits w 0) (wordByte nbits w 1) (wordByte nbits w 2)

end Sys2Proof.Machine
end

