-- ==== Sys2Proof/Safety.lean ====
section
/-! DEFINITION. The terms claims are stated in: what a run's end is, what a state leaves unchanged, the invariants, and
how many pushes a run makes. -/

namespace Sys2Proof.Machine

/-! ## The end of a run -/

/-- Only HALT_OK is a successful end (spec/40_fetch_decode.md R54). -/
def Succeeded (s : State) : Prop := s.status = .halted .ok

/-- A fault is a halted status other than HALT_OK (spec/00_scope.md, glossary). -/
def Faulted (s : State) : Prop := ∃ why, s.status = .halted why ∧ why ≠ .ok

/-- What a run shows: its events, its final status, registers, PC, SP, FL and memory (R54). -/
structure Observation where
  out    : List OutEvent
  status : Status
  regs   : Regs
  pc     : Byte
  sp     : Byte
  fl     : Byte
  mem    : Memory
deriving DecidableEq, Repr

/-- The observation of a state (R54). The latches are no part of it: programs cannot see them (R22). -/
def observe (s : State) : Observation where
  out    := s.out
  status := s.status
  regs   := s.regs
  pc     := s.pc
  sp     := s.sp
  fl     := s.fl
  mem    := s.mem

/-! ## What an instruction leaves unchanged -/

/-- Every register is as before. -/
def SameRegs (s t : State) : Prop := ∀ r, reg t r = reg s r

/-- Every register but one is as before. -/
def SameRegsBut (s t : State) (d : RegIdx) : Prop := ∀ r, r ≠ d → reg t r = reg s r

/-- Every byte of memory reads as before. -/
def SameMem (s t : State) : Prop := ∀ a, readByte t a = readByte s a

/-- Every byte of memory but the one at an address reads as before. -/
def SameMemBut (s t : State) (x : Byte) : Prop := ∀ a, a ≠ x → readByte t a = readByte s a

/-- The status, the latches, the host's side and the parameters are as before. -/
def SameRest (s t : State) : Prop :=
  t.status = s.status ∧ t.ir = s.ir ∧ t.latchA = s.latchA ∧ t.latchB = s.latchB ∧
    t.hostQueue = s.hostQueue ∧ t.hostReplies = s.hostReplies ∧ t.params = s.params

/-- The next PC is `trunc8(PC + k)`. -/
def PcAdvances (s t : State) (k : Nat) : Prop := t.pc.toNat = (s.pc.toNat + k) % 256

/-- Register `d` holds `v`, PC advances by `k`, and nothing else changes. -/
def OnlyRegister (s t : State) (d : RegIdx) (v k : Nat) : Prop :=
  (reg t d).toNat = v ∧ SameRegsBut s t d ∧ PcAdvances s t k ∧
    t.sp = s.sp ∧ t.fl = s.fl ∧ SameMem s t ∧ t.out = s.out ∧ SameRest s t

/-- PC holds `v`, and nothing else changes. -/
def OnlyPc (s t : State) (v : Nat) : Prop :=
  t.pc.toNat = v ∧ SameRegs s t ∧ t.sp = s.sp ∧ t.fl = s.fl ∧ SameMem s t ∧ t.out = s.out ∧ SameRest s t

/-- SP is decremented modulo 256, the cell at the new SP holds `v`, every other cell reads as before, PC holds `target`,
and nothing else changes. -/
def OnlyPush (s t : State) (v target : Nat) : Prop :=
  t.sp = pushAddress s ∧ (pushAddress s).toNat = (s.sp.toNat + 255) % 256 ∧
    (readByte t (pushAddress s)).toNat = v ∧ SameMemBut s t (pushAddress s) ∧
    t.pc.toNat = target ∧ SameRegs s t ∧ t.fl = s.fl ∧ t.out = s.out ∧ SameRest s t

/-- The instruction halts the machine: the status becomes the reason and nothing else changes (R93). -/
def HaltsWith (i : Instr) (s : State) (why : HaltReason) : Prop :=
  exec i s = .next { s with status := .halted why }

/-- Under every legal map its opcode byte and these operand bytes, whatever follows them, are this instruction (R39, R42).
A legal map's `OPC_ADDI` is neither 0x00 nor 0xA1 (DEDUCED, notes/assumptions/3.md). -/
def Encodes (opcode : OpcodeMap → Byte) (operands : List Byte) (i : Instr) : Prop :=
  ∀ m : OpcodeMap, m.wf = true → ∀ rest, decode m (opcode m :: operands ++ rest) = .ok (i, rest)

/-! ## Invariants -/

/-- FL is one of the reset value and the three patterns CMP writes (R19). -/
def LegalFlags (fl : Byte) : Prop := fl = 0b000 ∨ fl = 0b001 ∨ fl = 0b010 ∨ fl = 0b100

/-- In IDLE nothing has run: every register is at its reset value and the output port is empty (R20, R24, R97). -/
def IdleIsFresh (s : State) : Prop :=
  s.status = .idle →
    s.regs = Regs.reset ∧ s.pc = Config.pcReset ∧ s.sp = Config.spReset ∧ s.fl = Config.flReset ∧ s.out = []

/-- The `DivByZero` event is on the output port exactly when the run ended with FAULT_DIV_BY_ZERO, and is then the last
event (R72, R90). -/
def ReportIsLast (s : State) : Prop :=
  (OutEvent.divByZero ∈ s.out ↔ s.status = .halted .divByZero) ∧
    (s.status = .halted .divByZero → ∃ before, s.out = before ++ [.divByZero] ∧ OutEvent.divByZero ∉ before)

/-- The machine's invariant: memory is in canonical form, the map is legal, FL is legal, IDLE is fresh, and the
zero-divisor report is where it belongs. -/
def Inv (s : State) : Prop :=
  Memory.wf s.mem = true ∧ s.params.opcodes.wf = true ∧ LegalFlags s.fl ∧ IdleIsFresh s ∧ ReportIsLast s

/-! ## Counting pushes along a run -/

/-- The next step executes a PUSH or a CALL whose operand is in range. -/
def pushesNext (s : State) : Bool :=
  match s.status, decode s.params.opcodes (fetchBytes s) with
  | .running, .ok (i, _) => i.WellFormed && (i.op == .push || i.op == .call)
  | _, _ => false

/-- How many PUSH and CALL instructions execute in `k` steps from a state. -/
def pushCount : Nat → State → Nat
  | 0, _ => 0
  | k + 1, s =>
    match step s with
    | .next t => (if pushesNext s then 1 else 0) + pushCount k t
    | .fault _ => 0
    | .refused _ => 0

end Sys2Proof.Machine
end

