-- ==== Sys2Proof/Certificates/Slice0/Obligations.lean ====
section
/-! DEFINITION. The statements for the provers: what the spec's numbered rules say the machine does. Registers are
quantified as `RegIdx` and written as their index byte; index bytes 8..255 have a clause of their own. Where a rule
rests on a decision of the spec (spec/92_eei_decisions.md), the statement names it; the default opcode bytes are
decision D2 throughout, and the `OPC_ADDI` of a legal map is neither 0x00 nor 0xA1 (DEDUCED, log entry 3). -/

open Sys2Proof
open Sys2Proof.Machine

/-! ## Encoding -/

/-- Every instruction, with every operand byte, decodes from its encoding under every legal map, whatever bytes follow. -/
def Obligations.DecodeOfEncode : Prop :=
  ∀ (m : OpcodeMap) (i : Instr) (rest : List Byte), m.wf = true → decode m (encode m i ++ rest) = .ok (i, rest)

/-- Under every map, bytes that decode are the encoding of what they decode to, followed by what is left over. -/
def Obligations.EncodeOfDecode : Prop :=
  ∀ (m : OpcodeMap) (bytes rest : List Byte) (i : Instr),
    decode m bytes = .ok (i, rest) → bytes = encode m i ++ rest

/-- Words written out from the table of R42, one for each of the four formats and each instruction family. -/
def Obligations.WordsOfTheTableDecode : Prop :=
  decodeTableWord 8 0x01 = some .hlt ∧
  decodeTableWord 8 0x11 = some .ret ∧
  decodeTableWord 16 0x0747 = some (.prn 7) ∧
  decodeTableWord 16 0x0350 = some (.call 3) ∧
  decodeTableWord 16 0x0145 = some (.push 1) ∧
  decodeTableWord 24 0xFF0582 = some (.ldi 5 0xFF) ∧
  decodeTableWord 24 0x0102A0 = some (.add 2 1) ∧
  decodeTableWord 24 0x0600AC = some (.shl 0 6)

/-- R45: under every legal map exactly 235 bytes are no opcode; the default map is legal and has 0x00 and 0xA1 among
them, whatever `OPC_ADDI` is. That `OPC_ADDI` is neither is the model's reading (DEDUCED, log entry 3). -/
def Obligations.AllOtherBytesAreIllegal : Prop :=
  (∀ m : OpcodeMap, m.wf = true →
    ((List.range 256).filter (fun n => (m.lookup (BitVec.ofNat 8 n)).isNone)).length = 235) ∧
  defaultOpcodeMap.wf = true ∧
  defaultOpcodeMap.lookup 0x00 = none ∧
  defaultOpcodeMap.lookup 0xA1 = none

/-! ## The engine cycle -/

/-- R48: a fetch latches the bytes at PC, PC+1 and PC+2, modulo 256 (decision D5), and changes nothing else. -/
def Obligations.FetchLatchesThreeBytes : Prop :=
  ∀ s : State,
    fetch s = { s with
      ir := readByte s s.pc, latchA := readByte s (s.pc + 1), latchB := readByte s (s.pc + 2) } ∧
    (s.pc = 0xFE → (fetch s).latchA = readByte s 0xFF ∧ (fetch s).latchB = readByte s 0x00) ∧
    (s.pc = 0xFF → (fetch s).latchA = readByte s 0x00 ∧ (fetch s).latchB = readByte s 0x01)

/-- A step of a RUNNING machine whose fetched bytes decode runs that instruction, in range or not, on the state after
the fetch. That a step whose instruction halts (HLT, MOD by zero, an index of 8 or more) has loaded IR, A and B is the
model's reading (DEDUCED, log entry 8). -/
def Obligations.StepRunsDecodedInstruction : Prop :=
  ∀ (s : State) (i : Instr) (rest : List Byte),
    s.status = .running →
    decode s.params.opcodes [readByte s s.pc, readByte s (s.pc + 1), readByte s (s.pc + 2)] = .ok (i, rest) →
    step s = exec i (fetch s)

/-- R49: the opcode byte selects the handler of its row, which runs on the state after the fetch; a byte that no row has
changes only the status and the latches. That the halting step has loaded the latches is the model's reading (DEDUCED,
log entry 8). -/
def Obligations.DispatchByOpcode : Prop :=
  ∀ s : State, s.status = .running →
    (s.params.opcodes.wf = true → ∀ o : Op, s.params.opcodes.byteOf o = readByte s s.pc →
      ∃ i rest, i.op = o ∧ decode s.params.opcodes (fetchBytes s) = .ok (i, rest) ∧ step s = exec i (fetch s)) ∧
    ((∀ o : Op, s.params.opcodes.byteOf o ≠ readByte s s.pc) →
      step s = .next { fetch s with status := .halted .unknownOpcode })

/-- A RUNNING machine always has a next state, in which it is RUNNING or halted, and the host's queue, the host's replies
and the parameters are as before. That no step of a RUNNING machine takes an action of the host, a reset included, is
the model's choice (DESIGN CHOICE, log entry 5). -/
def Obligations.RunningStepAnswersNext : Prop :=
  ∀ s : State, s.status = .running →
    ∃ t, step s = .next t ∧ (t.status = .running ∨ ∃ why, t.status = .halted why) ∧
      t.hostQueue = s.hostQueue ∧ t.hostReplies = s.hostReplies ∧ t.params = s.params

/-- R93 (decisions D12, D13): a step that halts changes, beside the latches, only the status and, for a zero divisor, the
output port. That it has loaded the latches is the model's reading (DEDUCED, log entry 8). -/
def Obligations.HaltsArePrecise : Prop :=
  ∀ (s t : State) (why : HaltReason),
    s.status = .running → step s = .next t → t.status = .halted why →
    t = { fetch s with
      status := .halted why
      out := if why = .divByZero then s.out ++ [.divByZero] else s.out }

/-- R92 (decision D6): the halting condition that a decoded instruction reports, index checks before the instruction's own. -/
def Obligations.HaltReasonByPriority : Prop :=
  ∀ (s t : State) (i : Instr) (rest : List Byte),
    s.status = .running → decode s.params.opcodes (fetchBytes s) = .ok (i, rest) → step s = .next t →
    t.status ≠ .halted .unknownOpcode ∧
    (t.status = .halted .outOfRange ↔ i.WellFormed = false) ∧
    (t.status = .halted .ok ↔ i = .hlt) ∧
    (t.status = .halted .divByZero ↔ ∃ d r, i = .mod (indexByte d) (indexByte r) ∧ reg s r = 0)

/-- R50 (decision D6): an instruction with a register-index operand of 8 or more changes only the status, whether or not it would
have read that register. -/
def Obligations.IndexOutOfRangeHalts : Prop :=
  ∀ (i : Instr) (s : State),
    ((∃ a, i.regA = some a ∧ 8 ≤ a.toNat) ∨ (∃ b, i.regB = some b ∧ 8 ≤ b.toNat)) → HaltsWith i s .outOfRange

/-- R22: the latches' old values have no effect on a RUNNING machine, and in no status on what a step shows. -/
def Obligations.LatchesAreUnobservable : Prop :=
  ∀ (s : State) (x y z : Byte),
    (s.status = .running → step { s with ir := x, latchA := y, latchB := z } = step s) ∧
    (∀ t, step s = .next t →
      ∃ u, step { s with ir := x, latchA := y, latchB := z } = .next u ∧ observe u = observe t)

/-- R47, R54: HLT is the only instruction that ends a run with success; every other end is a fault. That a step of a
RUNNING machine never leads to IDLE, since it takes no reset of the host, is the model's choice (DESIGN CHOICE, log
entry 5). -/
def Obligations.OnlyHltSucceeds : Prop :=
  ∀ s t : State, s.status = .running → step s = .next t →
    (Succeeded t ↔ ∃ rest, decode s.params.opcodes (fetchBytes s) = .ok (.hlt, rest)) ∧
    (t.status ≠ .running → Succeeded t ∨ Faulted t)

/-! ## Reset, boot and the host -/

/-- The status codes of R20 (decision D11): each status has its own, and the halted ones are those from 2 on. -/
def Obligations.StatusCodes : Prop :=
  Status.idle.code = 0 ∧ Status.running.code = 1 ∧ (Status.halted .ok).code = 2 ∧
  (Status.halted .unknownOpcode).code = 3 ∧ (Status.halted .outOfRange).code = 4 ∧
  (Status.halted .divByZero).code = 5 ∧
  ∀ x y : Status, (x.code = y.code → x = y) ∧ (2 ≤ x.code ↔ ∃ why, x = .halted why)

/-- R24, R97: what reset leaves, at construction and from any status: PC and SP by the source, the rest by decision D14.
The latches, unspecified there, are not named. -/
def Obligations.ResetValues : Prop :=
  ∀ s : State, ∀ t ∈ [State.reset, hostReset s],
    t.pc = 0x00 ∧ t.sp = 0xF4 ∧ (∀ r, reg t r = 0x00) ∧ t.fl = 0x00 ∧ (∀ a, readByte t a = 0x00) ∧
    t.status = .idle ∧ t.out = []

/-- R36 (decision D15): an accepted load puts byte i in cell i and changes nothing else; any other load changes nothing and the host is
told. -/
def Obligations.LoadWritesImage : Prop :=
  ∀ (s : State) (bytes : List Byte),
    (s.status = .idle → bytes.length ≤ 256 →
      (∀ (n : Nat) (h : n < bytes.length), readByte (hostLoad bytes s) (BitVec.ofNat 8 n) = bytes[n]) ∧
      (∀ a : Byte, bytes.length ≤ a.toNat → readByte (hostLoad bytes s) a = readByte s a) ∧
      hostLoad bytes s = { s with
        mem := (hostLoad bytes s).mem, hostReplies := s.hostReplies ++ [.accepted] }) ∧
    (s.status ≠ .idle ∨ 256 < bytes.length →
      hostLoad bytes s = { s with hostReplies := s.hostReplies ++ [.refused] })

/-- R47, R94 (decisions D11, D18): `run()` starts an IDLE machine and is refused in a halted status; `reset` returns any status to
IDLE. That `run()` is refused while RUNNING too is the model's choice (DESIGN CHOICE, log entry 13). -/
def Obligations.RunAndResetTransitions : Prop :=
  ∀ s : State,
    (s.status = .idle → hostRun s = { s with status := .running, hostReplies := s.hostReplies ++ [.accepted] }) ∧
    (s.status ≠ .idle → hostRun s = { s with hostReplies := s.hostReplies ++ [.refused] }) ∧
    (hostReset s).status = .idle

/-- R94 (decision D18): a halted status stays until a reset; load and run there change nothing of the CORE; with nothing queued there is
no step. The queue and the fault are the model's choices (DESIGN CHOICE, log entries 5 and 7). -/
def Obligations.HaltedIsFinal : Prop :=
  ∀ (s : State) (why : HaltReason), s.status = .halted why →
    (s.hostQueue = [] → step s = .fault (.halted why)) ∧
    (∀ bytes rest, s.hostQueue = .load bytes :: rest → step s =
      .next { s with hostQueue := rest, hostReplies := s.hostReplies ++ [.refused] }) ∧
    (∀ rest, s.hostQueue = .run :: rest → step s =
      .next { s with hostQueue := rest, hostReplies := s.hostReplies ++ [.refused] }) ∧
    (∀ rest, s.hostQueue = .reset :: rest → ∃ t, step s = .next t ∧ t.status = .idle ∧ t.hostQueue = rest)

/-- R20, R47 (decisions D14, D15, D18): an IDLE machine does nothing by itself, and each of the host's actions has its
effect and no other: a load writes the image or is refused, a run starts the CORE, a reset leaves the reset values. The
queue and the fault are the model's choices (DESIGN CHOICE, log entries 5 and 7). -/
def Obligations.IdleActsOnlyForTheHost : Prop :=
  ∀ s : State, s.status = .idle →
    (s.hostQueue = [] → step s = .fault .idle) ∧
    (∀ bytes rest, s.hostQueue = .load bytes :: rest → bytes.length ≤ 256 →
      ∃ t, step s = .next t ∧
        (∀ (n : Nat) (h : n < bytes.length), readByte t (BitVec.ofNat 8 n) = bytes[n]) ∧
        (∀ a : Byte, bytes.length ≤ a.toNat → readByte t a = readByte s a) ∧
        t = { s with
          mem := t.mem, hostQueue := rest, hostReplies := s.hostReplies ++ [.accepted] }) ∧
    (∀ bytes rest, s.hostQueue = .load bytes :: rest → 256 < bytes.length →
      step s = .next { s with hostQueue := rest, hostReplies := s.hostReplies ++ [.refused] }) ∧
    (∀ rest, s.hostQueue = .run :: rest → step s =
      .next { s with status := .running, hostQueue := rest, hostReplies := s.hostReplies ++ [.accepted] }) ∧
    (∀ rest, s.hostQueue = .reset :: rest →
      ∃ t, step s = .next t ∧ t.status = .idle ∧ t.pc = 0x00 ∧ t.sp = 0xF4 ∧ t.fl = 0x00 ∧
        (∀ r, reg t r = 0x00) ∧ (∀ a, readByte t a = 0x00) ∧ t.out = [] ∧ t.params = s.params ∧
        t.hostQueue = rest ∧ t.hostReplies = s.hostReplies ++ [.accepted])

/-- R98 (decisions D14, D18): from reset, `load(image)` and then `run()` give a RUNNING machine at address 0 with the image in memory.
The queued actions are the model's form of the host (log entry 5). -/
def Obligations.BootStartsTheImage : Prop :=
  ∀ image : List Byte, image.length ≤ 256 →
    ∃ t, Host.Core.run core 2 { State.reset with hostQueue := [.load image, .run] } = .next t ∧
      t.status = .running ∧ t.pc = 0x00 ∧ t.sp = 0xF4 ∧
      (∀ (n : Nat) (h : n < image.length), readByte t (BitVec.ofNat 8 n) = image[n]) ∧
      (∀ a : Byte, image.length ≤ a.toNat → readByte t a = 0x00)

/-! ## Invariants and rules of the whole machine -/

/-- The invariant holds after reset. -/
def Obligations.InvAtReset : Prop := Inv State.reset

/-- Every step keeps the invariant: canonical memory, a legal map, FL one of its four patterns, an IDLE machine as reset
leaves it, and the zero-divisor report last and only on its fault. -/
def Obligations.InvKeptByStep : Prop := ∀ s t : State, Inv s → step s = .next t → Inv t

/-- R61: only CMP writes FL. -/
def Obligations.OnlyCmpWritesFlags : Prop :=
  ∀ (i : Instr) (s t : State), exec i s = .next t → i.op ≠ .cmp → t.fl = s.fl

/-- R17 (decision D5): SP is written only by PUSH and CALL, each as `trunc8(SP - 1)`; when one of them halts, SP stays. -/
def Obligations.OnlyPushAndCallMoveSp : Prop :=
  ∀ (i : Instr) (s t : State), exec i s = .next t →
    t.sp = s.sp ∨ ((i.op = .push ∨ i.op = .call) ∧ i.WellFormed = true ∧ t.sp.toNat = (s.sp.toNat + 255) % 256)

/-- R27, R102: only PUSH and CALL write memory, and only the cell at the decremented SP. -/
def Obligations.OnlyPushAndCallWriteMemory : Prop :=
  ∀ (i : Instr) (s t : State) (a : Byte), exec i s = .next t → readByte t a ≠ readByte s a →
    (i.op = .push ∨ i.op = .call) ∧ a = pushAddress s

/-- R13: the only register an instruction may change is the one its slot A names, and only the writing rows of the table
change it. -/
def Obligations.OnlyDestinationRegisterWritten : Prop :=
  ∀ (i : Instr) (s t : State) (r : RegIdx), exec i s = .next t → reg t r ≠ reg s r →
    i.regA = some (indexByte r) ∧
    i.op ∈ [.ldi, .add, .mul, .and, .or, .xor, .shl, .shr, .mod, .not, .addi, .pop]

/-- R15, R78 (decisions D5, D12, D13): the next PC of an instruction that does not halt, and the held PC of one that does. -/
def Obligations.NextPcBySelect : Prop :=
  ∀ (i : Instr) (s t : State), s.status = .running → exec i s = .next t →
    ((∃ why, t.status = .halted why) → t.pc = s.pc) ∧
    (t.status = .running →
      (i.op ∈ [.prn, .not, .pop, .push] → PcAdvances s t 2) ∧
      (i.op ∈ [.ldi, .add, .mul, .cmp, .and, .or, .xor, .shl, .shr, .mod, .addi] → PcAdvances s t 3) ∧
      (i.op = .jeq → s.fl ≠ 0b00000001 → PcAdvances s t 2) ∧
      (i.op = .jne → s.fl = 0b00000001 → PcAdvances s t 2) ∧
      (i.op ∈ [.call, .jmp] ∨ (i.op = .jeq ∧ s.fl = 0b00000001) ∨ (i.op = .jne ∧ s.fl ≠ 0b00000001) →
        ∀ d, i.regA = some (indexByte d) → t.pc = reg s d) ∧
      (i.op = .ret → t.pc = readByte s s.sp))

/-- R55 (decisions D10, D17): an instruction sends at most one event, after all earlier ones: PRN the register's value, MOD the zero-divisor
report with its halt. -/
def Obligations.OutputEventsBySource : Prop :=
  ∀ (i : Instr) (s t : State), exec i s = .next t →
    t.out = s.out ∨
    (∃ d, i = .prn (indexByte d) ∧ t.out = s.out ++ [.value (reg s d)]) ∨
    (∃ d r, i = .mod (indexByte d) (indexByte r) ∧ reg s r = 0 ∧ t.out = s.out ++ [.divByZero] ∧
      t.status = .halted .divByZero)

/-- R65, R68, R69: `LOGIC_MODE` affects no instruction but AND and OR. -/
def Obligations.LogicModeAffectsOnlyAndOr : Prop :=
  ∀ (i : Instr) (s t : State) (mode : LogicMode), i.op ≠ .and → i.op ≠ .or → exec i s = .next t →
    exec i { s with params := { s.params with logicMode := mode } } =
      .next { t with params := { t.params with logicMode := mode } }

/-- R18 (decision D5): along every run of instruction steps, SP is the first SP less the number of PUSH and CALL executed, modulo 256;
from 0xF4 that is `trunc8(0xF4 - n)`. An empty queue of the host keeps resets out of the run (DESIGN CHOICE, log
entry 5). -/
def Obligations.SpCountsPushes : Prop :=
  ∀ (k : Nat) (s t : State), s.hostQueue = [] → Host.Core.run core k s = .next t →
    t.sp.toNat = (s.sp.toNat + 255 * pushCount k s) % 256

/-! ## Stack and control transfer, several instructions together -/

/-- The source's scenario for R76: POP right after PUSH reads the byte pushed and leaves SP as PUSH left it. -/
def Obligations.PushThenPop : Prop :=
  ∀ (s t u : State) (d e : RegIdx),
    exec (.push (indexByte d)) s = .next t → exec (.pop (indexByte e)) t = .next u →
    reg u e = reg s d ∧ u.sp = t.sp ∧ t.sp.toNat = (s.sp.toNat + 255) % 256

/-- R74: POP and RET leave the top cell and SP in place, so a second POP or RET reads the same cell again. -/
def Obligations.PopAndRetReadTheSameCellAgain : Prop :=
  ∀ (s t u : State) (d e : RegIdx),
    (exec (.pop (indexByte d)) s = .next t → exec (.pop (indexByte e)) t = .next u →
      reg t d = readByte s s.sp ∧ reg u e = readByte s s.sp ∧ u.sp = s.sp) ∧
    (exec .ret s = .next t → exec .ret t = .next u → t.pc = readByte s s.sp ∧ u.pc = t.pc ∧ u.sp = s.sp)

/-- The source's scenario for R81: RET after CALL returns to the address after the CALL. -/
def Obligations.CallThenRet : Prop :=
  ∀ (s t u : State) (d : RegIdx),
    exec (.call (indexByte d)) s = .next t → exec .ret t = .next u →
    t.pc = reg s d ∧ u.pc.toNat = (s.pc.toNat + 2) % 256 ∧ u.sp = t.sp

/-- R79: after a nested CALL, the inner RET returns after the inner CALL, and the outer RET, wherever it stands, returns
there again. -/
def Obligations.NestedCallReturnsToInner : Prop :=
  ∀ (s t u v w : State) (d e : RegIdx) (p : Byte),
    exec (.call (indexByte d)) s = .next t → exec (.call (indexByte e)) t = .next u →
    exec .ret u = .next v → exec .ret { v with pc := p } = .next w →
    v.pc.toNat = (t.pc.toNat + 2) % 256 ∧ w.pc = v.pc

/-- R100: a PUSH whose write may land on its own bytes completes with the operand latched at fetch; R35: the next fetch
sees the byte written. -/
def Obligations.PushOnItsOwnBytes : Prop :=
  ∀ (s : State) (d : RegIdx), s.params.opcodes.wf = true → s.status = .running →
    readByte s s.pc = s.params.opcodes.push → readByte s (s.pc + 1) = indexByte d →
    ∃ t, step s = .next t ∧ t.sp = s.sp - 1 ∧ readByte t (s.sp - 1) = reg s d ∧ SameMemBut s t (s.sp - 1) ∧
      t.pc = s.pc + 2 ∧ SameRegs s t ∧ t.fl = s.fl ∧ t.status = .running ∧
      (t.pc = s.sp - 1 → (fetch t).ir = reg s d)

/-- R84, whose index check is decision D6: on every FL, JEQ and JNE through one register are exact complements: one goes to the register's value and the
other to the next instruction. -/
def Obligations.JeqAndJneAreComplements : Prop :=
  ∀ (s : State) (d : RegIdx), ∃ t u,
    exec (.jeq (indexByte d)) s = .next t ∧ exec (.jne (indexByte d)) s = .next u ∧
    ((t.pc = reg s d ∧ PcAdvances s u 2 ∧ s.fl = 0b00000001) ∨
      (PcAdvances s t 2 ∧ u.pc = reg s d ∧ s.fl ≠ 0b00000001))

/-! ## One statement per instruction: encoding, effect and frame, halts -/

/-- R56. -/
def Obligations.LdiResult : Prop :=
  (∀ a imm, Encodes OpcodeMap.ldi [a, imm] (.ldi a imm)) ∧
  defaultOpcodeMap.ldi = 0x82 ∧
  (∀ (s : State) (d : RegIdx) (imm : Byte), ∃ t, exec (.ldi (indexByte d) imm) s = .next t ∧
    OnlyRegister s t d imm.toNat 3) ∧
  (∀ (s : State) (a imm : Byte), 8 ≤ a.toNat → HaltsWith (.ldi a imm) s .outOfRange)

/-- R57. -/
def Obligations.PrnResult : Prop :=
  (∀ a, Encodes OpcodeMap.prn [a] (.prn a)) ∧
  defaultOpcodeMap.prn = 0x47 ∧
  (∀ (s : State) (d : RegIdx), ∃ t, exec (.prn (indexByte d)) s = .next t ∧
    t.out = s.out ++ [.value (reg s d)] ∧ PcAdvances s t 2 ∧
    SameRegs s t ∧ t.sp = s.sp ∧ t.fl = s.fl ∧ SameMem s t ∧ SameRest s t) ∧
  (∀ (s : State) (a : Byte), 8 ≤ a.toNat → HaltsWith (.prn a) s .outOfRange)

/-- R58 (decision D12): the status becomes HALT_OK and nothing else changes, and no step follows unless the host acts (the
fault that says so is a DESIGN CHOICE, log entry 7). -/
def Obligations.HltResult : Prop :=
  Encodes OpcodeMap.hlt [] .hlt ∧
  defaultOpcodeMap.hlt = 0x01 ∧
  (∀ s : State, ∃ t, exec .hlt s = .next t ∧ t = { s with status := .halted .ok }) ∧
  (∀ s t : State, exec .hlt s = .next t → t.hostQueue = [] → step t = .fault (.halted .ok))

/-- R62. -/
def Obligations.AddResult : Prop :=
  (∀ a b, Encodes OpcodeMap.add [a, b] (.add a b)) ∧
  defaultOpcodeMap.add = 0xA0 ∧
  (∀ (s : State) (d r : RegIdx), ∃ t, exec (.add (indexByte d) (indexByte r)) s = .next t ∧
    OnlyRegister s t d (((reg s d).toNat + (reg s r).toNat) % 256) 3) ∧
  (∀ (s : State) (a b : Byte), 8 ≤ a.toNat ∨ 8 ≤ b.toNat → HaltsWith (.add a b) s .outOfRange)

/-- R63. -/
def Obligations.MulResult : Prop :=
  (∀ a b, Encodes OpcodeMap.mul [a, b] (.mul a b)) ∧
  defaultOpcodeMap.mul = 0xA2 ∧
  (∀ (s : State) (d r : RegIdx), ∃ t, exec (.mul (indexByte d) (indexByte r)) s = .next t ∧
    OnlyRegister s t d (((reg s d).toNat * (reg s r).toNat) % 256) 3) ∧
  (∀ (s : State) (a b : Byte), 8 ≤ a.toNat ∨ 8 ≤ b.toNat → HaltsWith (.mul a b) s .outOfRange)

/-- R64 (decisions D4, D8): all of FL is written; no register changes. -/
def Obligations.CmpResult : Prop :=
  (∀ a b, Encodes OpcodeMap.cmp [a, b] (.cmp a b)) ∧
  defaultOpcodeMap.cmp = 0xA7 ∧
  (∀ (s : State) (d r : RegIdx), ∃ t, exec (.cmp (indexByte d) (indexByte r)) s = .next t ∧
    ((reg s d).toNat = (reg s r).toNat → t.fl = 0b00000001) ∧
    ((reg s d).toNat > (reg s r).toNat → t.fl = 0b00000010) ∧
    ((reg s d).toNat < (reg s r).toNat → t.fl = 0b00000100) ∧
    PcAdvances s t 3 ∧ SameRegs s t ∧ t.sp = s.sp ∧ SameMem s t ∧ t.out = s.out ∧ SameRest s t) ∧
  (∀ (s : State) (a b : Byte), 8 ≤ a.toNat ∨ 8 ≤ b.toNat → HaltsWith (.cmp a b) s .outOfRange)

/-- R66, in each mode of R65 (decision D7). That the logical modes give an operand and not a truth value is from general
knowledge (PRESUMED, G5, log entry 1). -/
def Obligations.AndResult : Prop :=
  (∀ a b, Encodes OpcodeMap.and [a, b] (.and a b)) ∧
  defaultOpcodeMap.and = 0xA8 ∧
  (∀ (s : State) (d r : RegIdx), ∃ t, exec (.and (indexByte d) (indexByte r)) s = .next t ∧
    OnlyRegister s t d
      (match s.params.logicMode with
        | .logical => if (reg s d).toNat = 0 then (reg s d).toNat else (reg s r).toNat
        | .orAsAnd => if (reg s d).toNat = 0 then (reg s d).toNat else (reg s r).toNat
        | .bitwise => (reg s d).toNat &&& (reg s r).toNat) 3) ∧
  (∀ (s : State) (a b : Byte), 8 ≤ a.toNat ∨ 8 ≤ b.toNat → HaltsWith (.and a b) s .outOfRange)

/-- R67, in each mode of R65 (decision D7). What OR computes is the mode's, and that the logical modes give an operand and
not a truth value is from general knowledge (PRESUMED, G5, log entry 1). -/
def Obligations.OrResult : Prop :=
  (∀ a b, Encodes OpcodeMap.or [a, b] (.or a b)) ∧
  defaultOpcodeMap.or = 0xAA ∧
  (∀ (s : State) (d r : RegIdx), ∃ t, exec (.or (indexByte d) (indexByte r)) s = .next t ∧
    OnlyRegister s t d
      (match s.params.logicMode with
        | .logical => if (reg s d).toNat ≠ 0 then (reg s d).toNat else (reg s r).toNat
        | .orAsAnd => if (reg s d).toNat = 0 then (reg s d).toNat else (reg s r).toNat
        | .bitwise => (reg s d).toNat ||| (reg s r).toNat) 3) ∧
  (∀ (s : State) (a b : Byte), 8 ≤ a.toNat ∨ 8 ≤ b.toNat → HaltsWith (.or a b) s .outOfRange)

/-- R68. -/
def Obligations.XorResult : Prop :=
  (∀ a b, Encodes OpcodeMap.xor [a, b] (.xor a b)) ∧
  defaultOpcodeMap.xor = 0xAB ∧
  (∀ (s : State) (d r : RegIdx), ∃ t, exec (.xor (indexByte d) (indexByte r)) s = .next t ∧
    OnlyRegister s t d ((reg s d).toNat ^^^ (reg s r).toNat) 3) ∧
  (∀ (s : State) (a b : Byte), 8 ≤ a.toNat ∨ 8 ≤ b.toNat → HaltsWith (.xor a b) s .outOfRange)

/-- R69 (decision D4): the 8-bit complement, as the number 255 less the operand. -/
def Obligations.NotResult : Prop :=
  (∀ a, Encodes OpcodeMap.not [a] (.not a)) ∧
  defaultOpcodeMap.not = 0x69 ∧
  (∀ (s : State) (d : RegIdx), ∃ t, exec (.not (indexByte d)) s = .next t ∧
    OnlyRegister s t d (255 - (reg s d).toNat) 2) ∧
  (∀ (s : State) (a : Byte), 8 ≤ a.toNat → HaltsWith (.not a) s .outOfRange)

/-- R70 (decision D9): the count is the whole byte. -/
def Obligations.ShlResult : Prop :=
  (∀ a b, Encodes OpcodeMap.shl [a, b] (.shl a b)) ∧
  defaultOpcodeMap.shl = 0xAC ∧
  (∀ (s : State) (d r : RegIdx), ∃ t, exec (.shl (indexByte d) (indexByte r)) s = .next t ∧
    OnlyRegister s t d (((reg s d).toNat * 2 ^ (reg s r).toNat) % 256) 3) ∧
  (∀ (s : State) (a b : Byte), 8 ≤ a.toNat ∨ 8 ≤ b.toNat → HaltsWith (.shl a b) s .outOfRange)

/-- R71 (decision D9): floor division by the power of two, so the fill is zero and the count is the whole byte. -/
def Obligations.ShrResult : Prop :=
  (∀ a b, Encodes OpcodeMap.shr [a, b] (.shr a b)) ∧
  defaultOpcodeMap.shr = 0xAD ∧
  (∀ (s : State) (d r : RegIdx), ∃ t, exec (.shr (indexByte d) (indexByte r)) s = .next t ∧
    OnlyRegister s t d ((reg s d).toNat / 2 ^ (reg s r).toNat) 3) ∧
  (∀ (s : State) (a b : Byte), 8 ≤ a.toNat ∨ 8 ≤ b.toNat → HaltsWith (.shr a b) s .outOfRange)

/-- R72, R90 (decision D10): the unsigned remainder; a zero divisor emits the report, halts, and writes no register. -/
def Obligations.ModResult : Prop :=
  (∀ a b, Encodes OpcodeMap.mod [a, b] (.mod a b)) ∧
  defaultOpcodeMap.mod = 0xA4 ∧
  (∀ (s : State) (d r : RegIdx), (reg s r).toNat ≠ 0 →
    ∃ t, exec (.mod (indexByte d) (indexByte r)) s = .next t ∧
      OnlyRegister s t d ((reg s d).toNat % (reg s r).toNat) 3) ∧
  (∀ (s : State) (d r : RegIdx), (reg s r).toNat = 0 →
    exec (.mod (indexByte d) (indexByte r)) s =
      .next { s with status := .halted .divByZero, out := s.out ++ [.divByZero] }) ∧
  (∀ (s : State) (a b : Byte), 8 ≤ a.toNat ∨ 8 ≤ b.toNat → HaltsWith (.mod a b) s .outOfRange)

/-- R73, under every legal map, so for every legal `OPC_ADDI`: every byte that is no other opcode of the map, but for 0x00
and 0xA1, which the model shuts out (DEDUCED from R45 against R43, log entry 3). -/
def Obligations.AddiResult : Prop :=
  (∀ a imm, Encodes OpcodeMap.addi [a, imm] (.addi a imm)) ∧
  (∀ (s : State) (d : RegIdx) (imm : Byte), ∃ t, exec (.addi (indexByte d) imm) s = .next t ∧
    OnlyRegister s t d (((reg s d).toNat + imm.toNat) % 256) 3) ∧
  (∀ (s : State) (a imm : Byte), 8 ≤ a.toNat → HaltsWith (.addi a imm) s .outOfRange)

/-- R76: the cell at SP, with SP unchanged. -/
def Obligations.PopResult : Prop :=
  (∀ a, Encodes OpcodeMap.pop [a] (.pop a)) ∧
  defaultOpcodeMap.pop = 0x46 ∧
  (∀ (s : State) (d : RegIdx), ∃ t, exec (.pop (indexByte d)) s = .next t ∧
    OnlyRegister s t d (readByte s s.sp).toNat 2) ∧
  (∀ (s : State) (a : Byte), 8 ≤ a.toNat → HaltsWith (.pop a) s .outOfRange)

/-- R77: the register's value goes to the cell at the decremented SP. -/
def Obligations.PushResult : Prop :=
  (∀ a, Encodes OpcodeMap.push [a] (.push a)) ∧
  defaultOpcodeMap.push = 0x45 ∧
  (∀ (s : State) (d : RegIdx), ∃ t, exec (.push (indexByte d)) s = .next t ∧
    OnlyPush s t (reg s d).toNat ((s.pc.toNat + 2) % 256)) ∧
  (∀ (s : State) (a : Byte), 8 ≤ a.toNat → HaltsWith (.push a) s .outOfRange)

/-- R80: the return address goes to the cell at the decremented SP, PC to the register's value. -/
def Obligations.CallResult : Prop :=
  (∀ a, Encodes OpcodeMap.call [a] (.call a)) ∧
  defaultOpcodeMap.call = 0x50 ∧
  (∀ (s : State) (d : RegIdx), ∃ t, exec (.call (indexByte d)) s = .next t ∧
    OnlyPush s t ((s.pc.toNat + 2) % 256) (reg s d).toNat) ∧
  (∀ (s : State) (a : Byte), 8 ≤ a.toNat → HaltsWith (.call a) s .outOfRange)

/-- R81: PC takes the cell at SP, with SP unchanged. -/
def Obligations.RetResult : Prop :=
  Encodes OpcodeMap.ret [] .ret ∧
  defaultOpcodeMap.ret = 0x11 ∧
  (∀ s : State, ∃ t, exec .ret s = .next t ∧ OnlyPc s t (readByte s s.sp).toNat)

/-- R82. -/
def Obligations.JmpResult : Prop :=
  (∀ a, Encodes OpcodeMap.jmp [a] (.jmp a)) ∧
  defaultOpcodeMap.jmp = 0x54 ∧
  (∀ (s : State) (d : RegIdx), ∃ t, exec (.jmp (indexByte d)) s = .next t ∧ OnlyPc s t (reg s d).toNat) ∧
  (∀ (s : State) (a : Byte), 8 ≤ a.toNat → HaltsWith (.jmp a) s .outOfRange)

/-- R83: taken exactly when FL is 0b00000001; the index is checked either way (decision D6). -/
def Obligations.JeqResult : Prop :=
  (∀ a, Encodes OpcodeMap.jeq [a] (.jeq a)) ∧
  defaultOpcodeMap.jeq = 0x55 ∧
  (∀ (s : State) (d : RegIdx), ∃ t, exec (.jeq (indexByte d)) s = .next t ∧
    OnlyPc s t (if s.fl.toNat = 1 then (reg s d).toNat else (s.pc.toNat + 2) % 256)) ∧
  (∀ (s : State) (a : Byte), 8 ≤ a.toNat → HaltsWith (.jeq a) s .outOfRange)

/-- R84: taken exactly when FL is not 0b00000001; the index is checked either way (decision D6). -/
def Obligations.JneResult : Prop :=
  (∀ a, Encodes OpcodeMap.jne [a] (.jne a)) ∧
  defaultOpcodeMap.jne = 0x56 ∧
  (∀ (s : State) (d : RegIdx), ∃ t, exec (.jne (indexByte d)) s = .next t ∧
    OnlyPc s t (if s.fl.toNat ≠ 1 then (reg s d).toNat else (s.pc.toNat + 2) % 256)) ∧
  (∀ (s : State) (a : Byte), 8 ≤ a.toNat → HaltsWith (.jne a) s .outOfRange)
end

