-- ==== Sys2Proof/Laws/State.lean ====
section
/-! SUPPORT. One lemma per field per state update, so that no later proof unfolds a record update. -/

namespace Sys2Proof.Machine

variable (s : State)

@[simp] theorem setReg_regs (i : RegIdx) (v : Byte) : (setReg s i v).regs = s.regs.set i v := rfl
@[simp] theorem setReg_pc (i : RegIdx) (v : Byte) : (setReg s i v).pc = s.pc := rfl
@[simp] theorem setReg_sp (i : RegIdx) (v : Byte) : (setReg s i v).sp = s.sp := rfl
@[simp] theorem setReg_fl (i : RegIdx) (v : Byte) : (setReg s i v).fl = s.fl := rfl
@[simp] theorem setReg_status (i : RegIdx) (v : Byte) : (setReg s i v).status = s.status := rfl
@[simp] theorem setReg_ir (i : RegIdx) (v : Byte) : (setReg s i v).ir = s.ir := rfl
@[simp] theorem setReg_latchA (i : RegIdx) (v : Byte) : (setReg s i v).latchA = s.latchA := rfl
@[simp] theorem setReg_latchB (i : RegIdx) (v : Byte) : (setReg s i v).latchB = s.latchB := rfl
@[simp] theorem setReg_mem (i : RegIdx) (v : Byte) : (setReg s i v).mem = s.mem := rfl
@[simp] theorem setReg_out (i : RegIdx) (v : Byte) : (setReg s i v).out = s.out := rfl
@[simp] theorem setReg_hostQueue (i : RegIdx) (v : Byte) : (setReg s i v).hostQueue = s.hostQueue := rfl
@[simp] theorem setReg_hostReplies (i : RegIdx) (v : Byte) : (setReg s i v).hostReplies = s.hostReplies := rfl
@[simp] theorem setReg_params (i : RegIdx) (v : Byte) : (setReg s i v).params = s.params := rfl

@[simp] theorem setPc_regs (v : Byte) : (setPc s v).regs = s.regs := rfl
@[simp] theorem setPc_pc (v : Byte) : (setPc s v).pc = v := rfl
@[simp] theorem setPc_sp (v : Byte) : (setPc s v).sp = s.sp := rfl
@[simp] theorem setPc_fl (v : Byte) : (setPc s v).fl = s.fl := rfl
@[simp] theorem setPc_status (v : Byte) : (setPc s v).status = s.status := rfl
@[simp] theorem setPc_ir (v : Byte) : (setPc s v).ir = s.ir := rfl
@[simp] theorem setPc_latchA (v : Byte) : (setPc s v).latchA = s.latchA := rfl
@[simp] theorem setPc_latchB (v : Byte) : (setPc s v).latchB = s.latchB := rfl
@[simp] theorem setPc_mem (v : Byte) : (setPc s v).mem = s.mem := rfl
@[simp] theorem setPc_out (v : Byte) : (setPc s v).out = s.out := rfl
@[simp] theorem setPc_hostQueue (v : Byte) : (setPc s v).hostQueue = s.hostQueue := rfl
@[simp] theorem setPc_hostReplies (v : Byte) : (setPc s v).hostReplies = s.hostReplies := rfl
@[simp] theorem setPc_params (v : Byte) : (setPc s v).params = s.params := rfl

@[simp] theorem setSp_regs (v : Byte) : (setSp s v).regs = s.regs := rfl
@[simp] theorem setSp_pc (v : Byte) : (setSp s v).pc = s.pc := rfl
@[simp] theorem setSp_sp (v : Byte) : (setSp s v).sp = v := rfl
@[simp] theorem setSp_fl (v : Byte) : (setSp s v).fl = s.fl := rfl
@[simp] theorem setSp_status (v : Byte) : (setSp s v).status = s.status := rfl
@[simp] theorem setSp_ir (v : Byte) : (setSp s v).ir = s.ir := rfl
@[simp] theorem setSp_latchA (v : Byte) : (setSp s v).latchA = s.latchA := rfl
@[simp] theorem setSp_latchB (v : Byte) : (setSp s v).latchB = s.latchB := rfl
@[simp] theorem setSp_mem (v : Byte) : (setSp s v).mem = s.mem := rfl
@[simp] theorem setSp_out (v : Byte) : (setSp s v).out = s.out := rfl
@[simp] theorem setSp_hostQueue (v : Byte) : (setSp s v).hostQueue = s.hostQueue := rfl
@[simp] theorem setSp_hostReplies (v : Byte) : (setSp s v).hostReplies = s.hostReplies := rfl
@[simp] theorem setSp_params (v : Byte) : (setSp s v).params = s.params := rfl

@[simp] theorem setFl_regs (v : Byte) : (setFl s v).regs = s.regs := rfl
@[simp] theorem setFl_pc (v : Byte) : (setFl s v).pc = s.pc := rfl
@[simp] theorem setFl_sp (v : Byte) : (setFl s v).sp = s.sp := rfl
@[simp] theorem setFl_fl (v : Byte) : (setFl s v).fl = v := rfl
@[simp] theorem setFl_status (v : Byte) : (setFl s v).status = s.status := rfl
@[simp] theorem setFl_ir (v : Byte) : (setFl s v).ir = s.ir := rfl
@[simp] theorem setFl_latchA (v : Byte) : (setFl s v).latchA = s.latchA := rfl
@[simp] theorem setFl_latchB (v : Byte) : (setFl s v).latchB = s.latchB := rfl
@[simp] theorem setFl_mem (v : Byte) : (setFl s v).mem = s.mem := rfl
@[simp] theorem setFl_out (v : Byte) : (setFl s v).out = s.out := rfl
@[simp] theorem setFl_hostQueue (v : Byte) : (setFl s v).hostQueue = s.hostQueue := rfl
@[simp] theorem setFl_hostReplies (v : Byte) : (setFl s v).hostReplies = s.hostReplies := rfl
@[simp] theorem setFl_params (v : Byte) : (setFl s v).params = s.params := rfl

@[simp] theorem writeByte_regs (a v : Byte) : (writeByte s a v).regs = s.regs := rfl
@[simp] theorem writeByte_pc (a v : Byte) : (writeByte s a v).pc = s.pc := rfl
@[simp] theorem writeByte_sp (a v : Byte) : (writeByte s a v).sp = s.sp := rfl
@[simp] theorem writeByte_fl (a v : Byte) : (writeByte s a v).fl = s.fl := rfl
@[simp] theorem writeByte_status (a v : Byte) : (writeByte s a v).status = s.status := rfl
@[simp] theorem writeByte_ir (a v : Byte) : (writeByte s a v).ir = s.ir := rfl
@[simp] theorem writeByte_latchA (a v : Byte) : (writeByte s a v).latchA = s.latchA := rfl
@[simp] theorem writeByte_latchB (a v : Byte) : (writeByte s a v).latchB = s.latchB := rfl
@[simp] theorem writeByte_mem (a v : Byte) : (writeByte s a v).mem = memWrite s.mem a.toNat v := rfl
@[simp] theorem writeByte_out (a v : Byte) : (writeByte s a v).out = s.out := rfl
@[simp] theorem writeByte_hostQueue (a v : Byte) : (writeByte s a v).hostQueue = s.hostQueue := rfl
@[simp] theorem writeByte_hostReplies (a v : Byte) : (writeByte s a v).hostReplies = s.hostReplies := rfl
@[simp] theorem writeByte_params (a v : Byte) : (writeByte s a v).params = s.params := rfl

@[simp] theorem emit_regs (e : OutEvent) : (emit s e).regs = s.regs := rfl
@[simp] theorem emit_pc (e : OutEvent) : (emit s e).pc = s.pc := rfl
@[simp] theorem emit_sp (e : OutEvent) : (emit s e).sp = s.sp := rfl
@[simp] theorem emit_fl (e : OutEvent) : (emit s e).fl = s.fl := rfl
@[simp] theorem emit_status (e : OutEvent) : (emit s e).status = s.status := rfl
@[simp] theorem emit_ir (e : OutEvent) : (emit s e).ir = s.ir := rfl
@[simp] theorem emit_latchA (e : OutEvent) : (emit s e).latchA = s.latchA := rfl
@[simp] theorem emit_latchB (e : OutEvent) : (emit s e).latchB = s.latchB := rfl
@[simp] theorem emit_mem (e : OutEvent) : (emit s e).mem = s.mem := rfl
@[simp] theorem emit_out (e : OutEvent) : (emit s e).out = s.out ++ [e] := rfl
@[simp] theorem emit_hostQueue (e : OutEvent) : (emit s e).hostQueue = s.hostQueue := rfl
@[simp] theorem emit_hostReplies (e : OutEvent) : (emit s e).hostReplies = s.hostReplies := rfl
@[simp] theorem emit_params (e : OutEvent) : (emit s e).params = s.params := rfl

@[simp] theorem reply_regs (p : HostReply) : (reply s p).regs = s.regs := rfl
@[simp] theorem reply_pc (p : HostReply) : (reply s p).pc = s.pc := rfl
@[simp] theorem reply_sp (p : HostReply) : (reply s p).sp = s.sp := rfl
@[simp] theorem reply_fl (p : HostReply) : (reply s p).fl = s.fl := rfl
@[simp] theorem reply_status (p : HostReply) : (reply s p).status = s.status := rfl
@[simp] theorem reply_ir (p : HostReply) : (reply s p).ir = s.ir := rfl
@[simp] theorem reply_latchA (p : HostReply) : (reply s p).latchA = s.latchA := rfl
@[simp] theorem reply_latchB (p : HostReply) : (reply s p).latchB = s.latchB := rfl
@[simp] theorem reply_mem (p : HostReply) : (reply s p).mem = s.mem := rfl
@[simp] theorem reply_out (p : HostReply) : (reply s p).out = s.out := rfl
@[simp] theorem reply_hostQueue (p : HostReply) : (reply s p).hostQueue = s.hostQueue := rfl
@[simp] theorem reply_hostReplies (p : HostReply) : (reply s p).hostReplies = s.hostReplies ++ [p] := rfl
@[simp] theorem reply_params (p : HostReply) : (reply s p).params = s.params := rfl

@[simp] theorem pushByte_regs (v : Byte) : (pushByte s v).regs = s.regs := rfl
@[simp] theorem pushByte_pc (v : Byte) : (pushByte s v).pc = s.pc := rfl
@[simp] theorem pushByte_sp (v : Byte) : (pushByte s v).sp = pushAddress s := rfl
@[simp] theorem pushByte_fl (v : Byte) : (pushByte s v).fl = s.fl := rfl
@[simp] theorem pushByte_status (v : Byte) : (pushByte s v).status = s.status := rfl
@[simp] theorem pushByte_ir (v : Byte) : (pushByte s v).ir = s.ir := rfl
@[simp] theorem pushByte_latchA (v : Byte) : (pushByte s v).latchA = s.latchA := rfl
@[simp] theorem pushByte_latchB (v : Byte) : (pushByte s v).latchB = s.latchB := rfl
@[simp] theorem pushByte_mem (v : Byte) : (pushByte s v).mem = memWrite s.mem (pushAddress s).toNat v := rfl
@[simp] theorem pushByte_out (v : Byte) : (pushByte s v).out = s.out := rfl
@[simp] theorem pushByte_hostQueue (v : Byte) : (pushByte s v).hostQueue = s.hostQueue := rfl
@[simp] theorem pushByte_hostReplies (v : Byte) : (pushByte s v).hostReplies = s.hostReplies := rfl
@[simp] theorem pushByte_params (v : Byte) : (pushByte s v).params = s.params := rfl

@[simp] theorem fetch_regs : (fetch s).regs = s.regs := rfl
@[simp] theorem fetch_pc : (fetch s).pc = s.pc := rfl
@[simp] theorem fetch_sp : (fetch s).sp = s.sp := rfl
@[simp] theorem fetch_fl : (fetch s).fl = s.fl := rfl
@[simp] theorem fetch_status : (fetch s).status = s.status := rfl
@[simp] theorem fetch_ir : (fetch s).ir = readByte s (pcPlus s 0) := rfl
@[simp] theorem fetch_latchA : (fetch s).latchA = readByte s (pcPlus s 1) := rfl
@[simp] theorem fetch_latchB : (fetch s).latchB = readByte s (pcPlus s 2) := rfl
@[simp] theorem fetch_mem : (fetch s).mem = s.mem := rfl
@[simp] theorem fetch_out : (fetch s).out = s.out := rfl
@[simp] theorem fetch_hostQueue : (fetch s).hostQueue = s.hostQueue := rfl
@[simp] theorem fetch_hostReplies : (fetch s).hostReplies = s.hostReplies := rfl
@[simp] theorem fetch_params : (fetch s).params = s.params := rfl

@[simp] theorem aluApply_regs (g : Byte → Byte → Byte) (d r : RegIdx) : (aluApply g d r s).regs = s.regs.set d (g (reg s d) (reg s r)) := rfl
@[simp] theorem aluApply_pc (g : Byte → Byte → Byte) (d r : RegIdx) : (aluApply g d r s).pc = routePc .seq3 s := rfl
@[simp] theorem aluApply_sp (g : Byte → Byte → Byte) (d r : RegIdx) : (aluApply g d r s).sp = s.sp := rfl
@[simp] theorem aluApply_fl (g : Byte → Byte → Byte) (d r : RegIdx) : (aluApply g d r s).fl = s.fl := rfl
@[simp] theorem aluApply_status (g : Byte → Byte → Byte) (d r : RegIdx) : (aluApply g d r s).status = s.status := rfl
@[simp] theorem aluApply_ir (g : Byte → Byte → Byte) (d r : RegIdx) : (aluApply g d r s).ir = s.ir := rfl
@[simp] theorem aluApply_latchA (g : Byte → Byte → Byte) (d r : RegIdx) : (aluApply g d r s).latchA = s.latchA := rfl
@[simp] theorem aluApply_latchB (g : Byte → Byte → Byte) (d r : RegIdx) : (aluApply g d r s).latchB = s.latchB := rfl
@[simp] theorem aluApply_mem (g : Byte → Byte → Byte) (d r : RegIdx) : (aluApply g d r s).mem = s.mem := rfl
@[simp] theorem aluApply_out (g : Byte → Byte → Byte) (d r : RegIdx) : (aluApply g d r s).out = s.out := rfl
@[simp] theorem aluApply_hostQueue (g : Byte → Byte → Byte) (d r : RegIdx) : (aluApply g d r s).hostQueue = s.hostQueue := rfl
@[simp] theorem aluApply_hostReplies (g : Byte → Byte → Byte) (d r : RegIdx) : (aluApply g d r s).hostReplies = s.hostReplies := rfl
@[simp] theorem aluApply_params (g : Byte → Byte → Byte) (d r : RegIdx) : (aluApply g d r s).params = s.params := rfl

@[simp] theorem loadImage_regs (bytes : List Byte) : (loadImage s bytes).regs = s.regs := rfl
@[simp] theorem loadImage_pc (bytes : List Byte) : (loadImage s bytes).pc = s.pc := rfl
@[simp] theorem loadImage_sp (bytes : List Byte) : (loadImage s bytes).sp = s.sp := rfl
@[simp] theorem loadImage_fl (bytes : List Byte) : (loadImage s bytes).fl = s.fl := rfl
@[simp] theorem loadImage_status (bytes : List Byte) : (loadImage s bytes).status = s.status := rfl
@[simp] theorem loadImage_ir (bytes : List Byte) : (loadImage s bytes).ir = s.ir := rfl
@[simp] theorem loadImage_latchA (bytes : List Byte) : (loadImage s bytes).latchA = s.latchA := rfl
@[simp] theorem loadImage_latchB (bytes : List Byte) : (loadImage s bytes).latchB = s.latchB := rfl
@[simp] theorem loadImage_mem (bytes : List Byte) : (loadImage s bytes).mem = memWriteFrom s.mem 0 bytes := rfl
@[simp] theorem loadImage_out (bytes : List Byte) : (loadImage s bytes).out = s.out := rfl
@[simp] theorem loadImage_hostQueue (bytes : List Byte) : (loadImage s bytes).hostQueue = s.hostQueue := rfl
@[simp] theorem loadImage_hostReplies (bytes : List Byte) : (loadImage s bytes).hostReplies = s.hostReplies := rfl
@[simp] theorem loadImage_params (bytes : List Byte) : (loadImage s bytes).params = s.params := rfl

/-! ## The accessors after an update -/

@[simp] theorem readByte_setReg (i : RegIdx) (v : Byte) (x : Byte) : readByte (setReg s i v) x = readByte s x := rfl
@[simp] theorem reg_setPc (v : Byte) (r : RegIdx) : reg (setPc s v) r = reg s r := rfl
@[simp] theorem readByte_setPc (v : Byte) (x : Byte) : readByte (setPc s v) x = readByte s x := rfl
@[simp] theorem reg_setSp (v : Byte) (r : RegIdx) : reg (setSp s v) r = reg s r := rfl
@[simp] theorem readByte_setSp (v : Byte) (x : Byte) : readByte (setSp s v) x = readByte s x := rfl
@[simp] theorem reg_setFl (v : Byte) (r : RegIdx) : reg (setFl s v) r = reg s r := rfl
@[simp] theorem readByte_setFl (v : Byte) (x : Byte) : readByte (setFl s v) x = readByte s x := rfl
@[simp] theorem reg_writeByte (a v : Byte) (r : RegIdx) : reg (writeByte s a v) r = reg s r := rfl
@[simp] theorem reg_emit (e : OutEvent) (r : RegIdx) : reg (emit s e) r = reg s r := rfl
@[simp] theorem readByte_emit (e : OutEvent) (x : Byte) : readByte (emit s e) x = readByte s x := rfl
@[simp] theorem reg_reply (p : HostReply) (r : RegIdx) : reg (reply s p) r = reg s r := rfl
@[simp] theorem readByte_reply (p : HostReply) (x : Byte) : readByte (reply s p) x = readByte s x := rfl
@[simp] theorem reg_pushByte (v : Byte) (r : RegIdx) : reg (pushByte s v) r = reg s r := rfl
@[simp] theorem reg_fetch (r : RegIdx) : reg (fetch s) r = reg s r := rfl
@[simp] theorem readByte_fetch (x : Byte) : readByte (fetch s) x = readByte s x := rfl
@[simp] theorem readByte_aluApply (g : Byte → Byte → Byte) (d r : RegIdx) (x : Byte) : readByte (aluApply g d r s) x = readByte s x := rfl

end Sys2Proof.Machine
end

