-- ==== Sys2Proof/Laws/Decode.lean ====
section
/-! SUPPORT. The dispatch table as a function, and what decoding and encoding say of each other. -/

namespace Sys2Proof

/-! ## The map -/

theorem mem_allOps (o : Op) : o ∈ allOps := by cases o <;> decide

theorem mem_mappedOps {o : Op} (h : o ≠ .addi) : o ∈ mappedOps := by
  cases o <;> first | decide | exact absurd rfl h

theorem OpcodeMap.wf_iff (m : OpcodeMap) :
    m.wf = true ↔ (allOps.map m.byteOf).Nodup ∧ m.addi ∉ namedIllegal := by
  simp [OpcodeMap.wf]

/-- Under a legal map the opcode byte says which instruction it is (R43, R45). -/
theorem OpcodeMap.byteOf_inj {m : OpcodeMap} (h : m.wf = true) {o o' : Op} (e : m.byteOf o = m.byteOf o') : o = o' :=
  List.inj_on_of_nodup_map (m.wf_iff.1 h).1 (mem_allOps o) (mem_allOps o') e

theorem OpcodeMap.byteOf_addi (m : OpcodeMap) : m.byteOf .addi = m.addi := rfl

/-- The dispatch table finds each of its rows (R49). -/
theorem OpcodeMap.lookup_byteOf {m : OpcodeMap} (h : m.wf = true) (o : Op) : m.lookup (m.byteOf o) = some o := by
  by_cases ho : o = .addi
  · subst ho
    have hnone : mappedOps.find? (fun o => m.byteOf o == m.addi) = none := by
      rw [List.find?_eq_none]
      intro o' ho' e
      have := m.byteOf_inj h ((beq_iff_eq.1 e).trans m.byteOf_addi.symm)
      subst this
      exact absurd ho' (by decide)
    have hill : namedIllegal.contains m.addi = false := by
      simpa [List.contains_iff_mem] using (m.wf_iff.1 h).2
    simp only [lookup, byteOf_addi, hnone, hill, beq_self_eq_true, if_true, Bool.false_eq_true, if_false]
  · have hsome : (mappedOps.find? (fun o' => m.byteOf o' == m.byteOf o)).isSome := by
      rw [List.find?_isSome]
      exact ⟨o, mem_mappedOps ho, beq_self_eq_true _⟩
    obtain ⟨o', ho'⟩ := Option.isSome_iff_exists.1 hsome
    have e : m.byteOf o' = m.byteOf o := by simpa using List.find?_some ho'
    rw [m.byteOf_inj h e] at ho'
    simp only [lookup, ho']

/-- Under every map, a row that is found has the byte looked up (R42: the whole byte is matched). -/
theorem OpcodeMap.byteOf_of_lookup {m : OpcodeMap} {x : Byte} {o : Op} (h : m.lookup x = some o) : m.byteOf o = x := by
  unfold lookup at h
  split at h
  · next o' ho' =>
    obtain rfl := Option.some.inj h
    simpa using List.find?_some ho'
  · split at h
    · cases h
    · split at h
      · next e =>
        obtain rfl := Option.some.inj h
        exact beq_iff_eq.1 e
      · cases h

/-- A byte that no row has is not found (R45). -/
theorem OpcodeMap.lookup_eq_none {m : OpcodeMap} {x : Byte} (h : ∀ o, m.byteOf o ≠ x) : m.lookup x = none := by
  cases hl : m.lookup x with
  | none => rfl
  | some o => exact absurd (byteOf_of_lookup hl) (h o)

/-! ## Operands -/

/-- The operand bytes of an instruction decode to it, with the bytes after it left over (R39). -/
theorem decodeOperands_operandBytes (i : Instr) (rest : List Byte) :
    decodeOperands i.op (i.operandBytes ++ rest) = .ok (i, rest) := by
  cases i <;> rfl

theorem takeOne_eq_ok {k : Byte → Instr} {bs rest : List Byte} {i : Instr} (h : takeOne k bs = .ok (i, rest)) :
    ∃ a, bs = a :: rest ∧ i = k a := by
  cases bs with
  | nil => cases h
  | cons a t => cases h; exact ⟨a, rfl, rfl⟩

theorem takeTwo_eq_ok {k : Byte → Byte → Instr} {bs rest : List Byte} {i : Instr}
    (h : takeTwo k bs = .ok (i, rest)) : ∃ a b, bs = a :: b :: rest ∧ i = k a b := by
  match bs, h with
  | a :: b :: _, h => cases h; exact ⟨a, b, rfl, rfl⟩
  | [_], h => cases h
  | [], h => cases h

/-- What decoding the operands of a row can answer: an instruction of that row whose bytes were there (R39). -/
theorem decodeOperands_eq_ok {o : Op} {bs rest : List Byte} {i : Instr} (h : decodeOperands o bs = .ok (i, rest)) :
    i.op = o ∧ bs = i.operandBytes ++ rest := by
  cases o <;> simp only [decodeOperands] at h <;>
    first
    | (cases h; exact ⟨rfl, rfl⟩)
    | (obtain ⟨a, rfl, rfl⟩ := takeOne_eq_ok h; exact ⟨rfl, rfl⟩)
    | (obtain ⟨a, b, rfl, rfl⟩ := takeTwo_eq_ok h; exact ⟨rfl, rfl⟩)

/-- Two operand bytes are enough for every row (R48). -/
theorem decodeOperands_two (o : Op) (a b : Byte) : ∃ i rest, decodeOperands o [a, b] = .ok (i, rest) := by
  cases o <;> exact ⟨_, _, rfl⟩

/-! ## Whole instructions -/

/-- What decoding can answer when it succeeds. -/
theorem decode_eq_ok {m : OpcodeMap} {bs rest : List Byte} {i : Instr} (h : decode m bs = .ok (i, rest)) :
    bs = encode m i ++ rest ∧ m.lookup (m.byteOf i.op) = some i.op := by
  cases bs with
  | nil => cases h
  | cons ir t =>
    simp only [decode] at h
    split at h
    · cases h
    · next o ho =>
      obtain ⟨hop, rfl⟩ := decodeOperands_eq_ok h
      obtain rfl := OpcodeMap.byteOf_of_lookup ho
      subst hop
      exact ⟨rfl, ho⟩

/-- Three fetched bytes fail to decode only when the opcode has no row (R48, R49). -/
theorem decode_three (m : OpcodeMap) (ir a b : Byte) :
    (m.lookup ir = none ∧ decode m [ir, a, b] = .error (.unknownOpcode ir)) ∨
      ∃ i rest, decode m [ir, a, b] = .ok (i, rest) := by
  cases h : m.lookup ir with
  | none => exact .inl ⟨rfl, by simp only [decode, h]⟩
  | some o =>
    obtain ⟨i, rest, hi⟩ := decodeOperands_two o a b
    exact .inr ⟨i, rest, by simp only [decode, h, hi]⟩

/-! ## The default map -/

theorem addiCandidates_length : addiCandidates.length = 234 := by decide +kernel

/-- Whatever `OPC_ADDI` is, it is a legal byte (R43, R45). -/
theorem legalAddi_opcAddi : legalAddi opcAddi = true := by
  have hlt : Config.opcAddiChoice.val < addiCandidates.length := by
    rw [addiCandidates_length]
    exact Config.opcAddiChoice.isLt
  have hmem : opcAddi ∈ addiCandidates := by
    rw [opcAddi, List.getD_eq_getElem _ _ hlt]
    exact List.getElem_mem hlt
  exact (List.mem_filter.1 hmem).2

end Sys2Proof
end

