-- ==== Sys2Proof/Laws/Memory.lean ====
section
/-! SUPPORT. The laws of memory: a read after a write, the other cells, and the canonical form every operation keeps. -/

namespace Sys2Proof.Machine

/-! ## Reads after a write -/

theorem memRead_filter_same (m : Memory) (a : Nat) :
    memRead (m.filter (fun c => c.1 != a)) a = Config.memReset := by
  induction m with
  | nil => rfl
  | cons c m ih =>
    obtain ⟨k, w⟩ := c
    by_cases h : k = a <;> simp [h, memRead, ih]

theorem memRead_filter_other (m : Memory) {a b : Nat} (h : b ≠ a) :
    memRead (m.filter (fun c => c.1 != a)) b = memRead m b := by
  induction m with
  | nil => rfl
  | cons c m ih =>
    obtain ⟨k, w⟩ := c
    by_cases hk : k = a
    · subst hk
      simp [memRead, ih, Ne.symm h]
    · simp [hk, memRead, ih]

theorem memRead_insert_same (m : Memory) (a : Nat) (v : Byte) : memRead (memInsert m a v) a = v := by
  induction m with
  | nil => simp [memInsert, memRead]
  | cons c m ih =>
    obtain ⟨k, w⟩ := c
    simp only [memInsert]
    split
    · simp [memRead]
    · split
      · simp [memRead]
      · simp [memRead, ih, Ne.symm ‹¬a = k›]

theorem memRead_insert_other (m : Memory) {a b : Nat} (v : Byte) (h : b ≠ a) :
    memRead (memInsert m a v) b = memRead m b := by
  induction m with
  | nil => simp [memInsert, memRead, Ne.symm h]
  | cons c m ih =>
    obtain ⟨k, w⟩ := c
    simp only [memInsert]
    split
    · simp [memRead, Ne.symm h]
    · split
      · subst_vars
        simp [memRead, Ne.symm h]
      · simp [memRead, ih]

/-- A read of the cell just written gives the byte written. -/
@[simp] theorem memRead_memWrite_same (m : Memory) (a : Nat) (v : Byte) : memRead (memWrite m a v) a = v := by
  unfold memWrite
  split
  · rw [memRead_filter_same, ‹v = _›]
  · exact memRead_insert_same m a v

/-- A write leaves every other cell alone. -/
theorem memRead_memWrite_other (m : Memory) {a b : Nat} (v : Byte) (h : b ≠ a) :
    memRead (memWrite m a v) b = memRead m b := by
  unfold memWrite
  split
  · exact memRead_filter_other m h
  · exact memRead_insert_other m v h

@[simp] theorem readByte_writeByte_same (s : State) (a v : Byte) : readByte (writeByte s a v) a = v :=
  memRead_memWrite_same _ _ _

theorem readByte_writeByte_other (s : State) {a b : Byte} (v : Byte) (h : b ≠ a) :
    readByte (writeByte s a v) b = readByte s b :=
  memRead_memWrite_other _ _ (fun e => h (BitVec.eq_of_toNat_eq e))

@[simp] theorem readByte_pushByte_same (s : State) (v : Byte) : readByte (pushByte s v) (pushAddress s) = v :=
  readByte_writeByte_same _ _ _

theorem readByte_pushByte_other (s : State) {b : Byte} (v : Byte) (h : b ≠ pushAddress s) :
    readByte (pushByte s v) b = readByte s b :=
  readByte_writeByte_other (setSp s (pushAddress s)) v h

/-! ## The canonical form -/

theorem Memory.wfFrom_cons {lo k : Nat} {v : Byte} {m : Memory} :
    Memory.wfFrom lo ((k, v) :: m) = true ↔
      lo ≤ k ∧ k < Config.memSize ∧ v ≠ Config.memReset ∧ Memory.wfFrom (k + 1) m = true := by
  simp [Memory.wfFrom, and_assoc]

theorem Memory.wfFrom_mono {m : Memory} {lo lo' : Nat} (hle : lo' ≤ lo) (h : Memory.wfFrom lo m = true) :
    Memory.wfFrom lo' m = true := by
  cases m with
  | nil => rfl
  | cons c m =>
    obtain ⟨k, w⟩ := c
    rw [wfFrom_cons] at h ⊢
    exact ⟨hle.trans h.1, h.2⟩

theorem Memory.wfFrom_filter (m : Memory) (a : Nat) {lo : Nat} (h : Memory.wfFrom lo m = true) :
    Memory.wfFrom lo (m.filter (fun c => c.1 != a)) = true := by
  induction m generalizing lo with
  | nil => rfl
  | cons c m ih =>
    obtain ⟨k, w⟩ := c
    rw [wfFrom_cons] at h
    by_cases hk : k = a
    · simp only [List.filter_cons, hk, bne_self_eq_false, Bool.false_eq_true, if_false]
      exact wfFrom_mono (by omega) (ih h.2.2.2)
    · simp only [List.filter_cons, bne_iff_ne, ne_eq, hk, not_false_eq_true, if_true]
      exact wfFrom_cons.2 ⟨h.1, h.2.1, h.2.2.1, ih h.2.2.2⟩

theorem Memory.wfFrom_insert (m : Memory) {a lo : Nat} {v : Byte} (hlo : lo ≤ a) (ha : a < Config.memSize)
    (hv : v ≠ Config.memReset) (h : Memory.wfFrom lo m = true) : Memory.wfFrom lo (memInsert m a v) = true := by
  induction m generalizing lo with
  | nil => exact wfFrom_cons.2 ⟨hlo, ha, hv, rfl⟩
  | cons c m ih =>
    obtain ⟨k, w⟩ := c
    rw [wfFrom_cons] at h
    simp only [memInsert]
    split
    · exact wfFrom_cons.2 ⟨hlo, ha, hv, wfFrom_cons.2 ⟨by omega, h.2⟩⟩
    · split
      · subst_vars
        exact wfFrom_cons.2 ⟨hlo, ha, hv, h.2.2.2⟩
      · exact wfFrom_cons.2 ⟨h.1, h.2.1, h.2.2.1, ih (by omega) h.2.2.2⟩

/-- A write to a cell that exists keeps the canonical form. -/
theorem Memory.wf_memWrite {m : Memory} {a : Nat} (v : Byte) (ha : a < Config.memSize) (h : Memory.wf m = true) :
    Memory.wf (memWrite m a v) = true := by
  unfold memWrite
  split
  · exact wfFrom_filter m a h
  · exact wfFrom_insert m (Nat.zero_le a) ha ‹_› h

theorem byte_lt_memSize (a : Byte) : a.toNat < Config.memSize := a.isLt

theorem wf_writeByte {s : State} (a v : Byte) (h : Memory.wf s.mem = true) :
    Memory.wf (writeByte s a v).mem = true :=
  Memory.wf_memWrite v (byte_lt_memSize a) h

theorem wf_pushByte {s : State} (v : Byte) (h : Memory.wf s.mem = true) : Memory.wf (pushByte s v).mem = true :=
  Memory.wf_memWrite v (byte_lt_memSize _) h

/-- Loading an image that fits keeps the canonical form. -/
theorem Memory.wf_memWriteFrom (vs : List Byte) {m : Memory} {a : Nat} (ha : a + vs.length ≤ Config.memSize)
    (h : Memory.wf m = true) : Memory.wf (memWriteFrom m a vs) = true := by
  induction vs generalizing m a with
  | nil => exact h
  | cons v vs ih =>
    simp only [List.length_cons] at ha
    exact ih (by omega) (wf_memWrite v (by omega) h)

/-- Cells outside a written range are left alone. -/
theorem memRead_memWriteFrom_other (vs : List Byte) (m : Memory) {a b : Nat} (h : b < a ∨ a + vs.length ≤ b) :
    memRead (memWriteFrom m a vs) b = memRead m b := by
  induction vs generalizing m a with
  | nil => rfl
  | cons v vs ih =>
    simp only [List.length_cons] at h
    rw [memWriteFrom, ih _ (by omega), memRead_memWrite_other m v (by omega)]

/-- Cell `a + i` of a written range holds byte `i`. -/
theorem memRead_memWriteFrom_same (vs : List Byte) (m : Memory) (a : Nat) {i : Nat} (hi : i < vs.length) :
    memRead (memWriteFrom m a vs) (a + i) = vs[i] := by
  induction vs generalizing m a i with
  | nil => simp at hi
  | cons v vs ih =>
    cases i with
    | zero => rw [memWriteFrom, memRead_memWriteFrom_other _ _ (by omega)]; simp
    | succ i =>
      simp only [List.length_cons] at hi
      have := ih (memWrite m a v) (a + 1) (i := i) (by omega)
      rw [memWriteFrom, show a + (i + 1) = a + 1 + i by omega, this]
      rfl

end Sys2Proof.Machine
end

