-- ==== Sys2Proof/Laws/Registers.lean ====
section
/-! SUPPORT. Reading a register after a write, and the index bytes that select registers. -/

namespace Sys2Proof.Machine

theorem Regs.get_set_same (r : Regs) (i : RegIdx) (v : Byte) : (r.set i v).get i = v := by
  fin_cases i <;> rfl

theorem Regs.get_set_other (r : Regs) {i j : RegIdx} (v : Byte) (h : j ≠ i) : (r.set i v).get j = r.get j := by
  fin_cases i <;> fin_cases j <;> first | rfl | exact absurd rfl h

@[simp] theorem reg_setReg_same (s : State) (d : RegIdx) (v : Byte) : reg (setReg s d v) d = v :=
  Regs.get_set_same _ _ _

theorem reg_setReg_other (s : State) {d r : RegIdx} (v : Byte) (h : r ≠ d) : reg (setReg s d v) r = reg s r :=
  Regs.get_set_other _ _ h

theorem toNat_indexByte (d : RegIdx) : (indexByte d).toNat = d.val := by
  have := d.isLt
  simp [indexByte]
  omega

@[simp] theorem regIndex_indexByte (d : RegIdx) : regIndex (indexByte d) = some d := by
  have h := toNat_indexByte d
  have := d.isLt
  simp [regIndex, h]

theorem regIndex_eq_none {a : Byte} (h : 8 ≤ a.toNat) : regIndex a = none := by
  simp [regIndex]
  omega

/-- Every byte is a register's index byte or is out of range (R40). -/
theorem indexByte_or_out (a : Byte) : (∃ d, a = indexByte d) ∨ 8 ≤ a.toNat := by
  by_cases h : a.toNat < 8
  · exact .inl ⟨⟨a.toNat, h⟩, BitVec.eq_of_toNat_eq (by rw [toNat_indexByte])⟩
  · exact .inr (by omega)

theorem indexByte_inj {d r : RegIdx} (h : indexByte d = indexByte r) : d = r := by
  have := congrArg BitVec.toNat h
  rw [toNat_indexByte, toNat_indexByte] at this
  exact Fin.ext this

@[simp] theorem indexInRange_indexByte (d : RegIdx) : indexInRange (indexByte d) = true := by
  have := d.isLt
  simp [indexInRange, toNat_indexByte]

theorem indexInRange_eq_false {a : Byte} (h : 8 ≤ a.toNat) : indexInRange a = false := by
  simp [indexInRange]
  omega

end Sys2Proof.Machine
end

