-- ==== Sys2Proof/Laws/Exec.lean ====
section
/-! SUPPORT. What each shared operation and each meaning answers, said once. -/

namespace Sys2Proof.Machine

variable (s : State)

/-! ## The index check -/

@[simp] theorem withReg_indexByte (d : RegIdx) (k : RegIdx → Result) : withReg (indexByte d) s k = k d := by
  simp [withReg]

theorem withReg_out {a : Byte} (h : 8 ≤ a.toNat) (k : RegIdx → Result) : withReg a s k = raiseHalt .outOfRange s := by
  simp [withReg, regIndex_eq_none h]

@[simp] theorem withRegs_indexByte (d r : RegIdx) (k : RegIdx → RegIdx → Result) :
    withRegs (indexByte d) (indexByte r) s k = k d r := by
  simp [withRegs]

theorem withRegs_out {a b : Byte} (h : 8 ≤ a.toNat ∨ 8 ≤ b.toNat) (k : RegIdx → RegIdx → Result) :
    withRegs a b s k = raiseHalt .outOfRange s := by
  obtain h | h := h
  · exact withReg_out s h _
  · obtain ⟨d, rfl⟩ | ha := indexByte_or_out a
    · rw [withRegs, withReg_indexByte, withReg_out s h]
    · exact withReg_out s ha _

/-- Everything the index check of slot A can do. -/
theorem withReg_cases {a : Byte} {s : State} {k : RegIdx → Result} {x : Result} (h : withReg a s k = x) :
    (∃ d, a = indexByte d ∧ k d = x) ∨ (8 ≤ a.toNat ∧ raiseHalt .outOfRange s = x) := by
  obtain ⟨d, rfl⟩ | ha := indexByte_or_out a
  · exact .inl ⟨d, rfl, by rwa [withReg_indexByte] at h⟩
  · exact .inr ⟨ha, by rwa [withReg_out s ha] at h⟩

/-- Everything the index check of both slots can do. -/
theorem withRegs_cases {a b : Byte} {s : State} {k : RegIdx → RegIdx → Result} {x : Result}
    (h : withRegs a b s k = x) :
    (∃ d r, a = indexByte d ∧ b = indexByte r ∧ k d r = x) ∨
      ((8 ≤ a.toNat ∨ 8 ≤ b.toNat) ∧ raiseHalt .outOfRange s = x) := by
  obtain ⟨d, rfl⟩ | ha := indexByte_or_out a
  · obtain ⟨r, rfl⟩ | hb := indexByte_or_out b
    · exact .inl ⟨d, r, rfl, rfl, by rwa [withRegs_indexByte] at h⟩
    · exact .inr ⟨.inr hb, by rwa [withRegs_out s (.inr hb)] at h⟩
  · exact .inr ⟨.inl ha, by rwa [withRegs_out s (.inl ha)] at h⟩

/-! ## The router and the stack's addresses -/

theorem toNat_pushAddress : (pushAddress s).toNat = (s.sp.toNat + 255) % 256 := by
  simp [pushAddress, BitVec.toNat_sub]
  omega

theorem toNat_routePc_seq2 : (routePc .seq2 s).toNat = (s.pc.toNat + 2) % 256 := toNat_trunc8 _
theorem toNat_routePc_seq3 : (routePc .seq3 s).toNat = (s.pc.toNat + 3) % 256 := toNat_trunc8 _
theorem routePc_reg (d : RegIdx) : routePc (.reg d) s = reg s d := rfl
theorem routePc_stack : routePc .stack s = readByte s s.sp := rfl
theorem routePc_hold : routePc .hold s = s.pc := rfl

/-! ## The meanings, on register operands in range -/

variable (d r : RegIdx) (imm : Byte)

theorem exec_hlt : exec .hlt s = .next { s with status := .halted .ok } := rfl
theorem exec_ret : exec .ret s = .next (setPc s (routePc .stack s)) := rfl
theorem exec_push : exec (.push (indexByte d)) s = .next (setPc (pushByte s (reg s d)) (routePc .seq2 s)) := by
  simp [exec, execPush]
theorem exec_pop :
    exec (.pop (indexByte d)) s = .next (setPc (setReg s d (readByte s s.sp)) (routePc .seq2 s)) := by
  simp [exec, execPop, topAddress]
theorem exec_prn : exec (.prn (indexByte d)) s = .next (setPc (emit s (.value (reg s d))) (routePc .seq2 s)) := by
  simp [exec, execPrn]
theorem exec_call : exec (.call (indexByte d)) s = .next (setPc (pushByte s (returnAddress s)) (reg s d)) := by
  simp [exec, execCall, routePc]
theorem exec_jmp : exec (.jmp (indexByte d)) s = .next (setPc s (reg s d)) := by simp [exec, execJmp, routePc]
theorem exec_jeq : exec (.jeq (indexByte d)) s =
    .next (setPc s (if s.fl = 0b00000001 then reg s d else routePc .seq2 s)) := by
  by_cases h : s.fl = 1#8 <;> simp [exec, execJeq, equalTaken, flagEqual, routePc, h]
theorem exec_jne : exec (.jne (indexByte d)) s =
    .next (setPc s (if s.fl = 0b00000001 then routePc .seq2 s else reg s d)) := by
  by_cases h : s.fl = 1#8 <;> simp [exec, execJne, equalTaken, flagEqual, routePc, h]
theorem exec_not : exec (.not (indexByte d)) s = .next (setPc (setReg s d (aluNot (reg s d))) (routePc .seq2 s)) := by
  simp [exec, execNot]
theorem exec_ldi : exec (.ldi (indexByte d) imm) s = .next (setPc (setReg s d imm) (routePc .seq3 s)) := by
  simp [exec, execLdi]
theorem exec_add : exec (.add (indexByte d) (indexByte r)) s = .next (aluApply aluAdd d r s) := by
  simp [exec, execAdd]
theorem exec_mul : exec (.mul (indexByte d) (indexByte r)) s = .next (aluApply aluMul d r s) := by
  simp [exec, execMul]
theorem exec_mod : exec (.mod (indexByte d) (indexByte r)) s =
    if reg s r = 0 then .next { s with status := .halted .divByZero, out := s.out ++ [.divByZero] }
    else .next (aluApply aluMod d r s) := by
  simp only [exec, execMod, withRegs_indexByte]
  rfl
theorem exec_cmp : exec (.cmp (indexByte d) (indexByte r)) s =
    .next (setPc (setFl s (compareFlags (reg s d) (reg s r))) (routePc .seq3 s)) := by
  simp [exec, execCmp]
theorem exec_and : exec (.and (indexByte d) (indexByte r)) s =
    .next (aluApply (aluAnd s.params.logicMode) d r s) := by
  simp [exec, execAnd]
theorem exec_or : exec (.or (indexByte d) (indexByte r)) s =
    .next (aluApply (aluOr s.params.logicMode) d r s) := by
  simp [exec, execOr]
theorem exec_xor : exec (.xor (indexByte d) (indexByte r)) s = .next (aluApply aluXor d r s) := by
  simp [exec, execXor]
theorem exec_shl : exec (.shl (indexByte d) (indexByte r)) s = .next (aluApply aluShl d r s) := by
  simp [exec, execShl]
theorem exec_shr : exec (.shr (indexByte d) (indexByte r)) s = .next (aluApply aluShr d r s) := by
  simp [exec, execShr]
theorem exec_addi : exec (.addi (indexByte d) imm) s =
    .next (setPc (setReg s d (aluAdd (reg s d) imm)) (routePc .seq3 s)) := by
  simp [exec, execAddi]

/-! ## The forms whose register operands are in range -/

/-- The instructions written with registers in place of index bytes: every well-formed one is here. -/
inductive InRange : Instr → Prop where
  | hlt : InRange .hlt
  | ret : InRange .ret
  | push (d : RegIdx) : InRange (.push (indexByte d))
  | pop (d : RegIdx) : InRange (.pop (indexByte d))
  | prn (d : RegIdx) : InRange (.prn (indexByte d))
  | call (d : RegIdx) : InRange (.call (indexByte d))
  | jmp (d : RegIdx) : InRange (.jmp (indexByte d))
  | jeq (d : RegIdx) : InRange (.jeq (indexByte d))
  | jne (d : RegIdx) : InRange (.jne (indexByte d))
  | not (d : RegIdx) : InRange (.not (indexByte d))
  | ldi (d : RegIdx) (imm : Byte) : InRange (.ldi (indexByte d) imm)
  | addi (d : RegIdx) (imm : Byte) : InRange (.addi (indexByte d) imm)
  | add (d r : RegIdx) : InRange (.add (indexByte d) (indexByte r))
  | mul (d r : RegIdx) : InRange (.mul (indexByte d) (indexByte r))
  | mod (d r : RegIdx) : InRange (.mod (indexByte d) (indexByte r))
  | cmp (d r : RegIdx) : InRange (.cmp (indexByte d) (indexByte r))
  | and (d r : RegIdx) : InRange (.and (indexByte d) (indexByte r))
  | or (d r : RegIdx) : InRange (.or (indexByte d) (indexByte r))
  | xor (d r : RegIdx) : InRange (.xor (indexByte d) (indexByte r))
  | shl (d r : RegIdx) : InRange (.shl (indexByte d) (indexByte r))
  | shr (d r : RegIdx) : InRange (.shr (indexByte d) (indexByte r))

theorem exists_indexByte {a : Byte} (h : indexInRange a = true) : ∃ d, a = indexByte d := by
  obtain ⟨d, rfl⟩ | ha := indexByte_or_out a
  · exact ⟨d, rfl⟩
  · rw [indexInRange_eq_false ha] at h
    cases h

theorem inRange_of_wellFormed {i : Instr} (h : i.WellFormed = true) : InRange i := by
  cases i <;> simp [Instr.WellFormed, Instr.regA, Instr.regB] at h
  case hlt => exact .hlt
  case ret => exact .ret
  case push a => obtain ⟨d, rfl⟩ := exists_indexByte h; exact .push d
  case pop a => obtain ⟨d, rfl⟩ := exists_indexByte h; exact .pop d
  case prn a => obtain ⟨d, rfl⟩ := exists_indexByte h; exact .prn d
  case call a => obtain ⟨d, rfl⟩ := exists_indexByte h; exact .call d
  case jmp a => obtain ⟨d, rfl⟩ := exists_indexByte h; exact .jmp d
  case jeq a => obtain ⟨d, rfl⟩ := exists_indexByte h; exact .jeq d
  case jne a => obtain ⟨d, rfl⟩ := exists_indexByte h; exact .jne d
  case not a => obtain ⟨d, rfl⟩ := exists_indexByte h; exact .not d
  case ldi a imm => obtain ⟨d, rfl⟩ := exists_indexByte h; exact .ldi d imm
  case addi a imm => obtain ⟨d, rfl⟩ := exists_indexByte h; exact .addi d imm
  case add a b => obtain ⟨d, rfl⟩ := exists_indexByte h.1; obtain ⟨r, rfl⟩ := exists_indexByte h.2; exact .add d r
  case mul a b => obtain ⟨d, rfl⟩ := exists_indexByte h.1; obtain ⟨r, rfl⟩ := exists_indexByte h.2; exact .mul d r
  case mod a b => obtain ⟨d, rfl⟩ := exists_indexByte h.1; obtain ⟨r, rfl⟩ := exists_indexByte h.2; exact .mod d r
  case cmp a b => obtain ⟨d, rfl⟩ := exists_indexByte h.1; obtain ⟨r, rfl⟩ := exists_indexByte h.2; exact .cmp d r
  case and a b => obtain ⟨d, rfl⟩ := exists_indexByte h.1; obtain ⟨r, rfl⟩ := exists_indexByte h.2; exact .and d r
  case or a b => obtain ⟨d, rfl⟩ := exists_indexByte h.1; obtain ⟨r, rfl⟩ := exists_indexByte h.2; exact .or d r
  case xor a b => obtain ⟨d, rfl⟩ := exists_indexByte h.1; obtain ⟨r, rfl⟩ := exists_indexByte h.2; exact .xor d r
  case shl a b => obtain ⟨d, rfl⟩ := exists_indexByte h.1; obtain ⟨r, rfl⟩ := exists_indexByte h.2; exact .shl d r
  case shr a b => obtain ⟨d, rfl⟩ := exists_indexByte h.1; obtain ⟨r, rfl⟩ := exists_indexByte h.2; exact .shr d r

/-- An ill-formed instruction halts before it has any effect. -/
theorem exec_illFormed {i : Instr} (s : State) (h : i.WellFormed = false) : exec i s = raiseHalt .outOfRange s := by
  cases i <;> simp [Instr.WellFormed, Instr.regA, Instr.regB, indexInRange] at h <;>
    first
    | exact withReg_out s (by omega) _
    | exact withRegs_out s (by omega) _

/-! ## The host and the step -/

variable {s}

/-- Outside RUNNING, with nothing queued, there is no step. -/
theorem hostStep_nil (f : Fault) (h : s.hostQueue = []) : hostStep f s = .fault f := by
  simp [hostStep, hostTurn, h]

/-- Outside RUNNING, the head of the host's queue acts. -/
theorem hostStep_cons (f : Fault) {act : HostAction} {rest : List HostAction} (h : s.hostQueue = act :: rest) :
    hostStep f s = .next (hostAct act { s with hostQueue := rest }) := by
  simp [hostStep, hostTurn, h]

/-- Everything a step outside RUNNING can do: the head of the host's queue, or no step. -/
theorem hostStep_cases (f : Fault) {x : Result} (h : hostStep f s = x) :
    (∃ act rest, s.hostQueue = act :: rest ∧ x = .next (hostAct act { s with hostQueue := rest })) ∨
      (s.hostQueue = [] ∧ x = .fault f) := by
  cases hq : s.hostQueue with
  | nil => exact .inr ⟨rfl, h.symm.trans (hostStep_nil f hq)⟩
  | cons act rest => exact .inl ⟨act, rest, rfl, h.symm.trans (hostStep_cons f hq)⟩

theorem step_running (h : s.status = .running) : step s = instrStep s := by simp only [step, engineStep, h]

theorem step_idle (h : s.status = .idle) : step s = hostStep .idle s := by simp only [step, engineStep, h]

theorem step_halted {why : HaltReason} (h : s.status = .halted why) : step s = hostStep (.halted why) s := by
  simp only [step, engineStep, h]

/-- A run whose first step has a next state goes on from it. -/
theorem core_run_next {t : State} (k : Nat) (h : step s = .next t) :
    Host.Core.run core (k + 1) s = Host.Core.run core k t := by
  have e := Host.Core.run.eq_2 core s k
  rw [show core.step s = .next t from h] at e
  exact e

/-- A run that has a next state has a first step with one. -/
theorem core_run_cases {u : State} {k : Nat} (h : Host.Core.run core (k + 1) s = .next u) :
    ∃ t, step s = .next t ∧ Host.Core.run core k t = .next u := by
  have e := Host.Core.run.eq_2 core s k
  cases hs : step s with
  | next t => exact ⟨t, rfl, (core_run_next k hs).symm.trans h⟩
  | fault f =>
    rw [show core.step s = .fault f from hs] at e
    cases e.symm.trans h
  | refused f =>
    rw [show core.step s = .refused f from hs] at e
    cases e.symm.trans h

/-- Everything an instruction step can do: the decoded instruction, or the unknown-opcode halt. -/
theorem instrStep_cases (s : State) :
    (∃ i rest, decode s.params.opcodes (fetchBytes s) = .ok (i, rest) ∧ instrStep s = exec i (fetch s)) ∨
      (s.params.opcodes.lookup (readByte s (pcPlus s 0)) = none ∧
        instrStep s = .next { fetch s with status := .halted .unknownOpcode }) := by
  have hb : latchBytes (fetch s) = fetchBytes s := rfl
  unfold instrStep
  rw [hb]
  obtain ⟨hl, he⟩ | ⟨i, rest, hi⟩ := decode_three s.params.opcodes (readByte s (pcPlus s 0))
      (readByte s (pcPlus s 1)) (readByte s (pcPlus s 2))
  · refine .inr ⟨hl, ?_⟩
    simp only [fetchBytes, he]
    rfl
  · refine .inl ⟨i, rest, hi, ?_⟩
    simp only [fetchBytes, hi]

end Sys2Proof.Machine
end

