-- ==== Sys2Proof/Laws/PerInstr.lean ====
section
/-! SUPPORT. Facts made per instruction: the family EncodeLength says that an instruction's bytes are as many as its
row of the table gives (spec/30_encoding.md R39, R44). -/

namespace Sys2Proof.Laws.EncodeLength

/-- Under every map the encoding has the table's length. -/
def Statement (i : Instr) : Prop := ∀ m : OpcodeMap, (encode m i).length = i.op.length

theorem hlt : Statement .hlt := fun _ => rfl
theorem ret : Statement .ret := fun _ => rfl
theorem push (a : Byte) : Statement (.push a) := fun _ => rfl
theorem pop (a : Byte) : Statement (.pop a) := fun _ => rfl
theorem prn (a : Byte) : Statement (.prn a) := fun _ => rfl
theorem call (a : Byte) : Statement (.call a) := fun _ => rfl
theorem jmp (a : Byte) : Statement (.jmp a) := fun _ => rfl
theorem jeq (a : Byte) : Statement (.jeq a) := fun _ => rfl
theorem jne (a : Byte) : Statement (.jne a) := fun _ => rfl
theorem not (a : Byte) : Statement (.not a) := fun _ => rfl
theorem ldi (a imm : Byte) : Statement (.ldi a imm) := fun _ => rfl
theorem add (a b : Byte) : Statement (.add a b) := fun _ => rfl
theorem mul (a b : Byte) : Statement (.mul a b) := fun _ => rfl
theorem mod (a b : Byte) : Statement (.mod a b) := fun _ => rfl
theorem cmp (a b : Byte) : Statement (.cmp a b) := fun _ => rfl
theorem and (a b : Byte) : Statement (.and a b) := fun _ => rfl
theorem or (a b : Byte) : Statement (.or a b) := fun _ => rfl
theorem xor (a b : Byte) : Statement (.xor a b) := fun _ => rfl
theorem shl (a b : Byte) : Statement (.shl a b) := fun _ => rfl
theorem shr (a b : Byte) : Statement (.shr a b) := fun _ => rfl
theorem addi (a imm : Byte) : Statement (.addi a imm) := fun _ => rfl

end Sys2Proof.Laws.EncodeLength
end

