-- ==== Sys2Proof/Tests/Slice0.lean ====
section
/-! SUPPORT. The model's own tests. Expected values are those of spec/95_test_vectors.md (its section or vector is named)
or of the worked example of the rule named. `OPC_ADDI` is 0x40 in the test states, one legal byte of many. -/

namespace Sys2Proof.Tests

open Sys2Proof.Machine

/-! ## Helpers -/

/-- The default map with one legal `OPC_ADDI`. -/
def testMap : OpcodeMap := mapWithAddi 0x40

/-- RUNNING at reset values. -/
def base : State :=
  { State.reset with status := .running, params := { opcodes := testMap, logicMode := .logical } }

/-- `base` with R0 and R1 set. -/
def two (x y : Byte) : State := { base with regs := { Regs.reset with r0 := x, r1 := y } }

/-- `base` in another `LOGIC_MODE`, with R0 and R1 set. -/
def twoMode (mode : LogicMode) (x y : Byte) : State :=
  { two x y with params := { opcodes := testMap, logicMode := mode } }

/-- What one step on the instruction bytes placed at PC gives, seen through `f`. -/
def after {α : Type} (s : State) (b0 b1 b2 : Byte) (f : State → α) : Option α :=
  match step (placeInstr s b0 b1 b2) with
  | .next t => some (f t)
  | .fault _ => none
  | .refused _ => none

/-! ## WellFormed refuses -/

theorem test_wellFormed_refuses_slot_a : (Instr.prn 8).WellFormed = false := by decide
theorem test_wellFormed_refuses_slot_b : (Instr.add 7 8).WellFormed = false := by decide
theorem test_wellFormed_ignores_immediate : (Instr.addi 7 0xFF).WellFormed = true := by decide

/-! ## Decoding: words written out from the rows of R42, first byte in bits 7..0 -/

theorem test_decode_hlt : decodeTableWord 8 0b00000001 = some .hlt := by decide
theorem test_decode_ret : decodeTableWord 8 0b00010001 = some .ret := by decide
theorem test_decode_push : decodeTableWord 16 0b00000011_01000101 = some (.push 3) := by decide
theorem test_decode_pop : decodeTableWord 16 0b00000010_01000110 = some (.pop 2) := by decide
theorem test_decode_prn : decodeTableWord 16 0b00000111_01000111 = some (.prn 7) := by decide
theorem test_decode_call : decodeTableWord 16 0b00000001_01010000 = some (.call 1) := by decide
theorem test_decode_jmp : decodeTableWord 16 0b00000010_01010100 = some (.jmp 2) := by decide
theorem test_decode_jeq : decodeTableWord 16 0b00000011_01010101 = some (.jeq 3) := by decide
theorem test_decode_jne : decodeTableWord 16 0b00001001_01010110 = some (.jne 9) := by decide
theorem test_decode_not : decodeTableWord 16 0b00000010_01101001 = some (.not 2) := by decide
theorem test_decode_ldi : decodeTableWord 24 0b11111111_00000001_10000010 = some (.ldi 1 255) := by decide
theorem test_decode_add : decodeTableWord 24 0b00000001_00000010_10100000 = some (.add 2 1) := by decide
theorem test_decode_mul : decodeTableWord 24 0b00000001_00000010_10100010 = some (.mul 2 1) := by decide
theorem test_decode_mod : decodeTableWord 24 0b00000001_00000010_10100100 = some (.mod 2 1) := by decide
theorem test_decode_cmp : decodeTableWord 24 0b00000001_00000010_10100111 = some (.cmp 2 1) := by decide
theorem test_decode_and : decodeTableWord 24 0b00000001_00000010_10101000 = some (.and 2 1) := by decide
theorem test_decode_or : decodeTableWord 24 0b00000001_00000010_10101010 = some (.or 2 1) := by decide
theorem test_decode_xor : decodeTableWord 24 0b00000001_00000010_10101011 = some (.xor 2 1) := by decide
theorem test_decode_shl : decodeTableWord 24 0b00000001_00000010_10101100 = some (.shl 2 1) := by decide
theorem test_decode_shr : decodeTableWord 24 0b00000001_00000010_10101101 = some (.shr 2 1) := by decide
theorem test_decode_addi : (decode testMap [0x40, 0x03, 0x0A]).toOption = some (.addi 3 10, []) := by decide
theorem test_decode_rejects_unknown :
    decode defaultOpcodeMap [0xA1, 0x00, 0x01] = .error (.unknownOpcode 0xA1) := rfl
theorem test_decode_rejects_truncated : decode defaultOpcodeMap [0xA0, 0x00] = .error .truncated := rfl
/-- R39: byte P+2 is no part of an F1 instruction. -/
theorem test_decode_leaves_third_byte :
    (decode defaultOpcodeMap [0x47, 0x00, 0xFF]).toOption = some (.prn 0, [0xFF]) := by decide
theorem test_encode_add : encode defaultOpcodeMap (.add 2 1) = [0xA0, 0x02, 0x01] := by decide

/-! ## Fetch and dispatch (section 2.1) -/

/-- F1. -/
theorem test_zero_byte_is_unknown :
    after base 0x00 0x00 0x00 (fun t => (t.status, t.pc)) = some (.halted .unknownOpcode, 0x00) := by decide
/-- F3. -/
theorem test_index_eight_halts :
    after base 0x82 0x08 0x05 (fun t => (t.status, t.regs)) = some (.halted .outOfRange, Regs.reset) := by decide
/-- F8: LDI across the wrap. -/
theorem test_fetch_wraps :
    after { base with pc := 0xFF } 0x82 0x03 0x2A (fun t => (reg t 3, t.pc)) = some (0x2A, 0x02) := by decide
/-- F9: the index of a JNE that is not taken is checked. -/
theorem test_untaken_jne_is_checked :
    after { base with fl := 0x01 } 0x56 0x09 0x00 (·.status) = some (.halted .outOfRange) := by decide
/-- F10: the index check comes before the zero-divisor test. -/
theorem test_index_before_divisor :
    after (two 5 0) 0xA4 0x09 0x01 (fun t => (t.status, t.out)) = some (.halted .outOfRange, []) := by decide

/-! ## LDI, PRN, HLT (section 2.2) -/

/-- L1. -/
theorem test_ldi : after base 0x82 0x07 0x11 (fun t => (reg t 7, t.pc, t.fl)) = some (0x11, 3, 0) := by decide
/-- L3. -/
theorem test_prn_is_unsigned :
    after (two 0xFF 0) 0x47 0x00 0x00 (fun t => (t.out, t.pc)) = some ([.value 255], 2) := by decide
/-- L4 and F7. -/
theorem test_hlt_keeps_pc :
    after { base with pc := 0x20 } 0x01 0x99 0x99 (fun t => (t.status, t.pc)) = some (.halted .ok, 0x20) := by decide

/-! ## ALU (section 2.3) -/

theorem test_add_wraps : after (two 200 100) 0xA0 0x00 0x01 (fun t => (reg t 0, t.pc)) = some (44, 3) := by decide
theorem test_add_same_register : after (two 0x80 0) 0xA0 0x00 0x00 (reg · 0) = some 0x00 := by decide
theorem test_mul_low_byte : after (two 0xFF 0xFF) 0xA2 0x00 0x01 (reg · 0) = some 0x01 := by decide
theorem test_mul : after (two 8 9) 0xA2 0x00 0x01 (reg · 0) = some 72 := by decide
theorem test_cmp_less : after (two 3 5) 0xA7 0x00 0x01 (fun t => (t.fl, reg t 0)) = some (0x04, 3) := by decide
theorem test_cmp_is_unsigned : after (two 0x80 0x7F) 0xA7 0x00 0x01 (·.fl) = some 0x02 := by decide
theorem test_and_modes :
    (after (two 0x0C 0x0A) 0xA8 0x00 0x01 (reg · 0), after (twoMode .orAsAnd 0 5) 0xA8 0x00 0x01 (reg · 0),
      after (twoMode .bitwise 0x0C 0x0A) 0xA8 0x00 0x01 (reg · 0)) = (some 0x0A, some 0, some 0x08) := by decide
theorem test_or_modes :
    (after (two 0x0C 0x0A) 0xAA 0x00 0x01 (reg · 0), after (twoMode .orAsAnd 0 5) 0xAA 0x00 0x01 (reg · 0),
      after (twoMode .bitwise 0x0C 0x0A) 0xAA 0x00 0x01 (reg · 0)) = (some 0x0C, some 0, some 0x0E) := by decide
theorem test_or_logical_zero : after (two 0 5) 0xAA 0x00 0x01 (reg · 0) = some 5 := by decide
theorem test_xor : after (two 0x0C 0x0A) 0xAB 0x00 0x01 (reg · 0) = some 0x06 := by decide
theorem test_not : after (two 0x55 0) 0x69 0x00 0xFF (fun t => (reg t 0, t.pc)) = some (0xAA, 2) := by decide
theorem test_shl_loses_bit : after (two 0x81 1) 0xAC 0x00 0x01 (reg · 0) = some 0x02 := by decide
theorem test_shl_count_is_not_masked : after (two 0x03 255) 0xAC 0x00 0x01 (reg · 0) = some 0 := by decide
theorem test_shr_zero_fill : after (two 0xFF 4) 0xAD 0x00 0x01 (reg · 0) = some 0x0F := by decide
theorem test_shr_width : after (two 0xFF 8) 0xAD 0x00 0x01 (reg · 0) = some 0 := by decide
theorem test_mod : after (two 255 16) 0xA4 0x00 0x01 (fun t => (reg t 0, t.pc)) = some (15, 3) := by decide
theorem test_mod_zero : after (two 17 0) 0xA4 0x00 0x01 (fun t => (reg t 0, t.pc, t.out, t.status)) =
    some (17, 0, [.divByZero], .halted .divByZero) := by decide
theorem test_addi_wraps : after (two 250 0) 0x40 0x00 0x0A (fun t => (reg t 0, t.pc)) = some (4, 3) := by decide
theorem test_addi_decrements : after (two 1 0) 0x40 0x00 0xFF (reg · 0) = some 0 := by decide

/-! ## Stack (section 2.4) -/

/-- K1. -/
theorem test_push : after (two 7 0) 0x45 0x00 0x00 (fun t => (t.sp, readByte t 0xF3, t.pc)) = some (0xF3, 7, 2) := by
  decide
/-- K5: a PUSH onto its own operand byte. -/
theorem test_push_on_own_operand :
    after { two 0x99 0 with pc := 0xF1, sp := 0xF3 } 0x45 0x00 0x00 (fun t => (readByte t 0xF2, t.sp, t.pc)) =
      some (0x99, 0xF2, 0xF3) := by decide
/-- The worked example of R76. -/
theorem test_pop : after { base with sp := 0xF3, mem := [(0xF3, 42)] } 0x46 0x01 0x00 (fun t => (reg t 1, t.sp)) =
    some (42, 0xF3) := by decide

/-! ## Control transfer (section 2.5) -/

/-- T1. -/
theorem test_call : after { two 0 0x10 with pc := 0x04 } 0x50 0x01 0x00 (fun t => (t.sp, readByte t 0xF3, t.pc)) =
    some (0xF3, 0x06, 0x10) := by decide
/-- T2: the return address wraps. -/
theorem test_call_at_top : after { two 0 0x20 with pc := 0xFF } 0x50 0x01 0x00 (fun t => (readByte t 0xF3, t.pc)) =
    some (0x01, 0x20) := by decide
/-- T3. -/
theorem test_ret : after { base with sp := 0xF3, mem := [(0xF3, 6)] } 0x11 0x00 0x00 (fun t => (t.pc, t.sp)) =
    some (0x06, 0xF3) := by decide
/-- T6. -/
theorem test_jmp : after (two 0 0x20) 0x54 0x01 0x00 (·.pc) = some 0x20 := by decide
/-- T7: taken on 0x01, not on the corrupted 0x03. -/
theorem test_jeq_is_exact :
    (after { two 0 0x13 with pc := 0x0A, fl := 0x01 } 0x55 0x01 0x00 (·.pc),
      after { two 0 0x13 with pc := 0x0A, fl := 0x03 } 0x55 0x01 0x00 (·.pc)) = (some 0x13, some 0x0C) := by decide
/-- T8: taken before any CMP, not on 0x01. -/
theorem test_jne_is_exact :
    (after { two 0 0x13 with pc := 0x0A, fl := 0x00 } 0x56 0x01 0x00 (·.pc),
      after { two 0 0x13 with pc := 0x0A, fl := 0x01 } 0x56 0x01 0x00 (·.pc)) = (some 0x13, some 0x0C) := by decide

/-! ## The host (section 2.6) and the fetch word -/

/-- M2. -/
theorem test_load_of_257_is_refused :
    (hostLoad (List.replicate 257 0x01) State.reset).hostReplies = [.refused] := by
  have h : ¬(State.reset.status = .idle ∧ (List.replicate 257 (0x01 : Byte)).length ≤ Config.memSize) := by
    rw [List.length_replicate]; decide
  rw [hostLoad, if_neg h]
  rfl
/-- R36. -/
theorem test_load_writes_ascending :
    (hostLoad [0x82, 0x00, 0x08] State.reset).mem = [(0, 0x82), (2, 0x08)] := by decide
theorem test_withFetchWord_runs :
    (match step (State.reset.withFetchWord 24 0x080082) with | .next t => some (reg t 0, t.pc) | _ => none) =
      some (8, 3) := by decide

/-! ## Witnesses: for each statement with hypotheses, operands and states that meet them -/

/-- `base` with one instruction at PC. -/
def at0 (b0 b1 b2 : Byte) : State := placeInstr base b0 b1 b2

theorem witness_legal_map : testMap.wf = true := by decide

/-- DecodeOfEncode, AllOtherBytesAreIllegal and the encoding clauses, whatever `OPC_ADDI` is. -/
theorem witness_default_map : defaultOpcodeMap.wf = true := legalAddi_opcAddi

theorem witness_EncodeOfDecode : decode testMap [0x82, 0x00, 0x08, 0x01] = .ok (.ldi 0 8, [0x01]) := rfl

/-- FetchLatchesThreeBytes: one state for each boundary clause. -/
theorem witness_FetchLatchesThreeBytes :
    ({ base with pc := 0xFE } : State).pc = 0xFE ∧ ({ base with pc := 0xFF } : State).pc = 0xFF := ⟨rfl, rfl⟩

/-- StepRunsDecodedInstruction, an instruction whose operands wrap. -/
theorem witness_StepRunsDecodedInstruction :
    let s := placeInstr { base with pc := 0xFF } 0x82 0x03 0x2A
    s.status = .running ∧
      decode s.params.opcodes [readByte s s.pc, readByte s (s.pc + 1), readByte s (s.pc + 2)] = .ok (.ldi 3 0x2A, []) :=
  ⟨rfl, rfl⟩

/-- DispatchByOpcode, the clause of a byte that has a row. -/
theorem witness_DispatchByOpcode_row :
    (at0 0xA0 0x00 0x01).status = .running ∧ (at0 0xA0 0x00 0x01).params.opcodes.wf = true ∧
      (at0 0xA0 0x00 0x01).params.opcodes.byteOf .add = readByte (at0 0xA0 0x00 0x01) 0 := by decide

/-- DispatchByOpcode, the clause of a byte that no row has. -/
theorem witness_DispatchByOpcode_no_row :
    (at0 0x00 0x00 0x00).status = .running ∧
      ∀ o : Op, (at0 0x00 0x00 0x00).params.opcodes.byteOf o ≠ readByte (at0 0x00 0x00 0x00) 0 :=
  ⟨rfl, by intro o; cases o <;> decide⟩

/-- LatchesAreUnobservable and OnlyHltSucceeds: a step that succeeds and one that faults. -/
theorem witness_LatchesAreUnobservable_OnlyHltSucceeds :
    (∃ t, step (at0 0x01 0 0) = .next t ∧ t.status = .halted .ok) ∧
      ∃ t, step (at0 0x47 8 0) = .next t ∧ t.status = .halted .outOfRange := ⟨⟨_, rfl, rfl⟩, _, rfl, rfl⟩

/-- RunningStepAnswersNext and LatchesAreUnobservable. -/
theorem witness_running : base.status = .running := rfl

/-- HaltsArePrecise, for each halt reason. -/
theorem witness_HaltsArePrecise :
    after base 0x01 0 0 (·.status) = some (.halted .ok) ∧
    after base 0xA1 0 0 (·.status) = some (.halted .unknownOpcode) ∧
    after base 0x47 8 0 (·.status) = some (.halted .outOfRange) ∧
    after base 0xA4 0 1 (·.status) = some (.halted .divByZero) := by decide

/-- HaltReasonByPriority: out of range and a zero divisor at once. -/
theorem witness_HaltReasonByPriority :
    (at0 0xA4 0x09 0x01).status = .running ∧
    decode (at0 0xA4 0x09 0x01).params.opcodes (fetchBytes (at0 0xA4 0x09 0x01)) = .ok (.mod 9 1, []) ∧
    ∃ t, step (at0 0xA4 0x09 0x01) = .next t := ⟨rfl, rfl, _, rfl⟩

/-- IndexOutOfRangeHalts and the last clause of every statement of one instruction: the range's two ends. -/
theorem witness_index_out_of_range :
    8 ≤ (8 : Byte).toNat ∧ 8 ≤ (255 : Byte).toNat ∧ (Instr.jne 8).regA = some 8 ∧ (Instr.add 7 255).regB = some 255 := by
  decide

/-- ResetValues holds of a state that has run. -/
theorem witness_ResetValues : hostReset (two 1 2) ∈ [State.reset, hostReset (two 1 2)] := by simp

/-- LoadWritesImage: the longest image accepted, and each ground of refusal at its boundary. -/
theorem witness_LoadWritesImage :
    State.reset.status = .idle ∧ (List.replicate 256 (0 : Byte)).length ≤ 256 ∧ base.status ≠ .idle ∧
      256 < (List.replicate 257 (0 : Byte)).length := by
  refine ⟨rfl, ?_, by decide, ?_⟩
  · rw [List.length_replicate]
  · rw [List.length_replicate]; decide

/-- RunAndResetTransitions: a state on each side. -/
theorem witness_RunAndResetTransitions : State.reset.status = .idle ∧ base.status ≠ .idle := by decide

/-- IdleActsOnlyForTheHost: an IDLE state with each queue, and images at both sides of the limit. -/
theorem witness_IdleActsOnlyForTheHost (q : List HostAction) :
    ({ State.reset with hostQueue := q } : State).status = .idle ∧
      ({ State.reset with hostQueue := q } : State).hostQueue = q ∧
      (List.replicate 256 (0 : Byte)).length ≤ 256 ∧ 256 < (List.replicate 257 (0 : Byte)).length := by
  refine ⟨rfl, rfl, ?_, ?_⟩
  · rw [List.length_replicate]
  · rw [List.length_replicate]; decide

/-- HaltedIsFinal: a halted state with each queue. -/
theorem witness_HaltedIsFinal (q : List HostAction) :
    ({ base with status := .halted .ok, hostQueue := q } : State).status = .halted .ok ∧
      ({ base with status := .halted .ok, hostQueue := q } : State).hostQueue = q := ⟨rfl, rfl⟩

/-- BootStartsTheImage: the shortest and the longest image. -/
theorem witness_BootStartsTheImage :
    ([] : List Byte).length ≤ 256 ∧ (List.replicate 256 (0 : Byte)).length ≤ 256 := by
  refine ⟨Nat.zero_le _, ?_⟩
  rw [List.length_replicate]

/-- InvKeptByStep: a running state that meets the invariant and steps. -/
theorem witness_InvKeptByStep : Inv (at0 0x45 0x00 0x00) ∧ ∃ t, step (at0 0x45 0x00 0x00) = .next t := by
  have hidle : IdleIsFresh (at0 0x45 0x00 0x00) := by intro h; cases h
  have hreport : ReportIsLast (at0 0x45 0x00 0x00) := ⟨by decide, by intro h; cases h⟩
  exact ⟨⟨by decide, by decide, .inl rfl, hidle, hreport⟩, _, rfl⟩

/-- OnlyCmpWritesFlags, OnlyPushAndCallMoveSp, NextPcBySelect, OutputEventsBySource and LogicModeAffectsOnlyAndOr. -/
theorem witness_exec_answers :
    (∃ t, exec (.add 0 1) base = .next t) ∧ (Instr.add 0 1).op ≠ .cmp ∧ (Instr.add 0 1).op ≠ .and ∧
      (Instr.add 0 1).op ≠ .or := ⟨⟨_, rfl⟩, by decide, by decide, by decide⟩

/-- OnlyPushAndCallWriteMemory: a PUSH that changes a byte. -/
theorem witness_OnlyPushAndCallWriteMemory :
    ∃ t, exec (.push 0) (two 7 0) = .next t ∧ readByte t 0xF3 ≠ readByte (two 7 0) 0xF3 := ⟨_, rfl, by decide⟩

/-- OnlyDestinationRegisterWritten: an ADD that changes its destination. -/
theorem witness_OnlyDestinationRegisterWritten :
    ∃ t, exec (.add 0 1) (two 7 1) = .next t ∧ reg t 0 ≠ reg (two 7 1) 0 := ⟨_, rfl, by decide⟩

/-- NextPcBySelect: a halt, and both branches of JEQ and JNE. -/
theorem witness_NextPcBySelect :
    (∃ t, exec .hlt base = .next t ∧ t.status = .halted .ok) ∧
    (∃ t, exec (.jeq 1) { base with fl := 0x01 } = .next t ∧ t.status = .running) ∧
    (∃ t, exec (.jeq 1) base = .next t ∧ t.status = .running) ∧
    (∃ t, exec (.jne 1) { base with fl := 0x01 } = .next t ∧ t.status = .running) ∧
    (∃ t, exec (.jne 1) base = .next t ∧ t.status = .running) ∧
    (Instr.jeq 1).regA = some (indexByte 1) :=
  ⟨⟨_, rfl, rfl⟩, ⟨_, rfl, rfl⟩, ⟨_, rfl, rfl⟩, ⟨_, rfl, rfl⟩, ⟨_, rfl, rfl⟩, rfl⟩

/-- SpCountsPushes: a run of a PUSH and the step after it. -/
theorem witness_SpCountsPushes :
    (at0 0x45 0x00 0x01).hostQueue = [] ∧ ∃ t, Host.Core.run core 2 (at0 0x45 0x00 0x01) = .next t ∧
      pushCount 2 (at0 0x45 0x00 0x01) = 1 := ⟨rfl, _, rfl, by decide⟩

/-- PushThenPop. -/
theorem witness_PushThenPop :
    ∃ t u, exec (.push (indexByte 0)) (two 7 0) = .next t ∧ exec (.pop (indexByte 1)) t = .next u :=
  ⟨_, _, exec_push _ _, exec_pop _ _⟩

/-- PopAndRetReadTheSameCellAgain. -/
theorem witness_PopAndRetReadTheSameCellAgain :
    (∃ t u, exec (.pop (indexByte 0)) base = .next t ∧ exec (.pop (indexByte 1)) t = .next u) ∧
      ∃ t u, exec .ret base = .next t ∧ exec .ret t = .next u :=
  ⟨⟨_, _, exec_pop _ _, exec_pop _ _⟩, _, _, rfl, rfl⟩

/-- CallThenRet. -/
theorem witness_CallThenRet :
    ∃ t u, exec (.call (indexByte 1)) (two 0 0x10) = .next t ∧ exec .ret t = .next u := ⟨_, _, exec_call _ _, rfl⟩

/-- NestedCallReturnsToInner. -/
theorem witness_NestedCallReturnsToInner :
    ∃ t u v w, exec (.call (indexByte 1)) (two 0 0x10) = .next t ∧ exec (.call (indexByte 0)) t = .next u ∧
      exec .ret u = .next v ∧ exec .ret { v with pc := 0x11 } = .next w :=
  ⟨_, _, _, _, exec_call _ _, exec_call _ _, rfl, rfl⟩

/-- PushOnItsOwnBytes: the write lands on the operand byte, and, in the second state, on the next opcode. -/
theorem witness_PushOnItsOwnBytes :
    let s := placeInstr { two 0x99 0 with pc := 0xF1, sp := 0xF3 } 0x45 0x00 0x00
    let n := placeInstr { two 0x99 0 with pc := 0xF1, sp := 0xF4 } 0x45 0x00 0x00
    s.params.opcodes.wf = true ∧ s.status = .running ∧ readByte s s.pc = s.params.opcodes.push ∧
      readByte s (s.pc + 1) = indexByte 0 ∧ s.sp - 1 = s.pc + 1 ∧
      n.status = .running ∧ readByte n n.pc = n.params.opcodes.push ∧ readByte n (n.pc + 1) = indexByte 0 ∧
      after { two 0x99 0 with pc := 0xF1, sp := 0xF4 } 0x45 0x00 0x00 (·.pc) = some (n.sp - 1) := by decide

/-- HltResult, the clause of the step after it. -/
theorem witness_HltResult : ∃ t, exec .hlt base = .next t ∧ t.hostQueue = [] := ⟨_, rfl, rfl⟩

/-- CmpResult: each of the three outcomes, at the boundary between them. -/
theorem witness_CmpResult :
    (reg (two 5 5) 0).toNat = (reg (two 5 5) 1).toNat ∧ (reg (two 6 5) 0).toNat > (reg (two 6 5) 1).toNat ∧
      (reg (two 4 5) 0).toNat < (reg (two 4 5) 1).toNat := by decide

/-- ModResult: a divisor of one and a divisor of zero. -/
theorem witness_ModResult : (reg (two 17 1) 1).toNat ≠ 0 ∧ (reg (two 17 0) 1).toNat = 0 := by decide

end Sys2Proof.Tests
end

section
/-! SUPPORT. The parts that a statement of one instruction is put together from: its encoding (R39, R42), the halt on an
index byte of 8..255 (R50), and the frame of the updates its meaning is made of. -/

namespace Sys2Proof.Machine

/-! ## Encoding -/

/-- Under a legal map the decoder reads an instruction's own bytes back (R39, R42, R49). -/
theorem decode_encode {m : OpcodeMap} (h : m.wf = true) (i : Instr) (rest : List Byte) :
    decode m (encode m i ++ rest) = .ok (i, rest) := by
  simp only [encode, List.cons_append, decode, m.lookup_byteOf h, decodeOperands_operandBytes]

/-- An opcode byte and operand bytes that are an instruction's encoding under every map encode it. -/
theorem encodes_of_encode {opcode : OpcodeMap → Byte} {operands : List Byte} {i : Instr}
    (h : ∀ m, encode m i = opcode m :: operands) : Encodes opcode operands i := by
  intro m hm rest
  rw [← h m]
  exact decode_encode hm i rest

/-! ## The index check -/

theorem wellFormed_eq_false_of_regA {i : Instr} {a : Byte} (ha : i.regA = some a) (h : 8 ≤ a.toNat) :
    i.WellFormed = false := by
  simp [Instr.WellFormed, ha, indexInRange_eq_false h]

/-- A register index of 8..255 in slot A halts the instruction with nothing else changed (R50, R93). -/
theorem haltsWith_outOfRange_of_regA {i : Instr} {a : Byte} (s : State) (ha : i.regA = some a) (h : 8 ≤ a.toNat) :
    HaltsWith i s .outOfRange :=
  exec_illFormed s (wellFormed_eq_false_of_regA ha h)

/-! ## Frames -/

variable (s t : State)

@[simp] theorem sameRest_refl : SameRest s s := ⟨rfl, rfl, rfl, rfl, rfl, rfl, rfl⟩
@[simp] theorem sameRest_setPc (v : Byte) : SameRest s (setPc t v) ↔ SameRest s t := Iff.rfl
@[simp] theorem sameRest_setReg (d : RegIdx) (v : Byte) : SameRest s (setReg t d v) ↔ SameRest s t := Iff.rfl
@[simp] theorem sameRest_emit (e : OutEvent) : SameRest s (emit t e) ↔ SameRest s t := Iff.rfl

@[simp] theorem sameMem_refl : SameMem s s := fun _ => rfl
@[simp] theorem sameMem_setPc (v : Byte) : SameMem s (setPc t v) ↔ SameMem s t := Iff.rfl
@[simp] theorem sameMem_setReg (d : RegIdx) (v : Byte) : SameMem s (setReg t d v) ↔ SameMem s t := Iff.rfl
@[simp] theorem sameMem_emit (e : OutEvent) : SameMem s (emit t e) ↔ SameMem s t := Iff.rfl

@[simp] theorem sameRegs_refl : SameRegs s s := fun _ => rfl
@[simp] theorem sameRegs_setPc (v : Byte) : SameRegs s (setPc t v) ↔ SameRegs s t := Iff.rfl
@[simp] theorem sameRegs_emit (e : OutEvent) : SameRegs s (emit t e) ↔ SameRegs s t := Iff.rfl

@[simp] theorem sameRegsBut_setPc (d : RegIdx) (v : Byte) : SameRegsBut s (setPc t v) d ↔ SameRegsBut s t d := Iff.rfl
@[simp] theorem sameRegsBut_setReg (d : RegIdx) (v : Byte) : SameRegsBut s (setReg s d v) d :=
  fun _ hr => reg_setReg_other s v hr

theorem pcAdvances_setPc_seq2 : PcAdvances s (setPc t (routePc .seq2 s)) 2 := toNat_routePc_seq2 s
theorem pcAdvances_setPc_seq3 : PcAdvances s (setPc t (routePc .seq3 s)) 3 := toNat_routePc_seq3 s

variable {s t}

/-- A register write and a PC that advances change only that register and PC. -/
theorem onlyRegister_setPc_setReg {d : RegIdx} {v p : Byte} {k : Nat}
    (h : PcAdvances s (setPc (setReg s d v) p) k) : OnlyRegister s (setPc (setReg s d v) p) d v.toNat k := by
  refine ⟨?value, ?regs, h, rfl, rfl, ?mem, rfl, ?rest⟩
  case value => rw [reg_setPc, reg_setReg_same]
  all_goals simp

end Sys2Proof.Machine
end

section
/-! Proofs of the statements about LDI and PRN (spec/41_load_print_halt.md R56, R57). -/

namespace Sys2Proof.Machine

/-- Settles O36: LDI is one register write and the router's PC + 3. -/
theorem ldiResult : Obligations.LdiResult := by
  refine ⟨?encoding, rfl, ?effect, ?halt⟩
  case encoding => exact fun a imm => encodes_of_encode fun _ => rfl
  case effect =>
    intro s d imm
    exact ⟨_, exec_ldi s d imm, onlyRegister_setPc_setReg (pcAdvances_setPc_seq3 s _)⟩
  case halt => exact fun s a imm h => haltsWith_outOfRange_of_regA s rfl h

/-- Settles O37: PRN is one event with the register's value and the router's PC + 2. -/
theorem prnResult : Obligations.PrnResult := by
  refine ⟨?encoding, rfl, ?effect, ?halt⟩
  case encoding => exact fun a => encodes_of_encode fun _ => rfl
  case effect =>
    intro s d
    refine ⟨_, exec_prn s d, rfl, pcAdvances_setPc_seq2 s _, ?regs, rfl, rfl, ?mem, ?rest⟩
    all_goals simp
  case halt => exact fun s a h => haltsWith_outOfRange_of_regA s rfl h

end Sys2Proof.Machine
end

section
/-! SUPPORT. What the ALU's operations compute as numbers (spec/42_alu.md §2, §4), the frame of the ALU's contract (R59),
and the index check of both operand slots (R50). -/

namespace Sys2Proof.Machine

/-! ## Values -/

variable (x y : Byte)

theorem toNat_aluAdd : (aluAdd x y).toNat = (x.toNat + y.toNat) % 256 := toNat_trunc8 _
theorem toNat_aluMul : (aluMul x y).toNat = (x.toNat * y.toNat) % 256 := toNat_trunc8 _
theorem toNat_aluXor : (aluXor x y).toNat = x.toNat ^^^ y.toNat := BitVec.toNat_xor x y

/-- The zero test of the logical modes, on numbers (R65). -/
theorem toNat_ite_eq_zero (v w : Byte) :
    (if x = 0 then v else w).toNat = if x.toNat = 0 then v.toNat else w.toNat := by
  have hx : x = 0 ↔ x.toNat = 0 := BitVec.toNat_eq
  simp only [apply_ite BitVec.toNat, hx]

theorem toNat_aluAnd_logical : (aluAnd .logical x y).toNat = if x.toNat = 0 then x.toNat else y.toNat :=
  toNat_ite_eq_zero x x y
theorem toNat_aluAnd_orAsAnd : (aluAnd .orAsAnd x y).toNat = if x.toNat = 0 then x.toNat else y.toNat :=
  toNat_ite_eq_zero x x y
theorem toNat_aluAnd_bitwise : (aluAnd .bitwise x y).toNat = x.toNat &&& y.toNat := BitVec.toNat_and x y

theorem toNat_aluOr_logical : (aluOr .logical x y).toNat = if x.toNat ≠ 0 then x.toNat else y.toNat :=
  (toNat_ite_eq_zero x y x).trans (ite_not ..).symm
theorem toNat_aluOr_orAsAnd : (aluOr .orAsAnd x y).toNat = if x.toNat = 0 then x.toNat else y.toNat :=
  toNat_ite_eq_zero x x y
theorem toNat_aluOr_bitwise : (aluOr .bitwise x y).toNat = x.toNat ||| y.toNat := BitVec.toNat_or x y

/-! ## The ALU's contract and the index check -/

/-- The ALU's contract changes only the destination register, to the operation's value, and advances PC by 3 (R59). -/
theorem onlyRegister_aluApply {s : State} {f : Byte → Byte → Byte} {d r : RegIdx} {v : Nat}
    (hv : (f (reg s d) (reg s r)).toNat = v) : OnlyRegister s (aluApply f d r s) d v 3 :=
  hv ▸ onlyRegister_setPc_setReg (pcAdvances_setPc_seq3 s _)

theorem wellFormed_eq_false_of_regB {i : Instr} {b : Byte} (hb : i.regB = some b) (h : 8 ≤ b.toNat) :
    i.WellFormed = false := by
  simp [Instr.WellFormed, hb, indexInRange_eq_false h]

/-- A register index of 8..255 in either slot halts the instruction with nothing else changed (R50, R93). -/
theorem haltsWith_outOfRange_of_regs {i : Instr} {a b : Byte} (s : State) (ha : i.regA = some a) (hb : i.regB = some b)
    (h : 8 ≤ a.toNat ∨ 8 ≤ b.toNat) : HaltsWith i s .outOfRange :=
  exec_illFormed s (h.elim (wellFormed_eq_false_of_regA ha) (wellFormed_eq_false_of_regB hb))

end Sys2Proof.Machine
end

section
/-! Proofs of the statements about the flags and about ADD, MUL, AND, OR and XOR (spec/42_alu.md R61 to R63, R66 to R68). -/

namespace Sys2Proof.Machine

/-- Settles O22: an ill-formed instruction changes only the status; each well-formed one but CMP is updates that leave FL
alone, and both ends of MOD do. -/
theorem onlyCmpWritesFlags : Obligations.OnlyCmpWritesFlags := by
  intro i s t h hcmp
  cases hw : i.WellFormed with
  | false =>
    rw [exec_illFormed s hw] at h
    cases h
    rfl
  | true =>
    cases inRange_of_wellFormed hw
    case cmp d r => exact absurd rfl hcmp
    case mod d r =>
      rw [exec_mod] at h
      split at h
      all_goals
        cases h
        rfl
    all_goals
      simp only [exec_hlt, exec_ret, exec_push, exec_pop, exec_prn, exec_call, exec_jmp, exec_jeq, exec_jne, exec_not,
        exec_ldi, exec_add, exec_mul, exec_and, exec_or, exec_xor, exec_shl, exec_shr, exec_addi] at h
      cases h
      rfl

/-- Settles O39: ADD is the ALU's contract with the sum modulo 256. -/
theorem addResult : Obligations.AddResult := by
  refine ⟨?encoding, rfl, ?effect, ?halt⟩
  case encoding => exact fun a b => encodes_of_encode fun _ => rfl
  case effect => exact fun s d r => ⟨_, exec_add s d r, onlyRegister_aluApply (toNat_aluAdd _ _)⟩
  case halt => exact fun s a b => haltsWith_outOfRange_of_regs s rfl rfl

/-- Settles O40: MUL is the ALU's contract with the low byte of the product. -/
theorem mulResult : Obligations.MulResult := by
  refine ⟨?encoding, rfl, ?effect, ?halt⟩
  case encoding => exact fun a b => encodes_of_encode fun _ => rfl
  case effect => exact fun s d r => ⟨_, exec_mul s d r, onlyRegister_aluApply (toNat_aluMul _ _)⟩
  case halt => exact fun s a b => haltsWith_outOfRange_of_regs s rfl rfl

/-- Settles O42: AND is the ALU's contract with the value its `LOGIC_MODE` gives. -/
theorem andResult : Obligations.AndResult := by
  refine ⟨?encoding, rfl, ?effect, ?halt⟩
  case encoding => exact fun a b => encodes_of_encode fun _ => rfl
  case effect =>
    intro s d r
    refine ⟨_, exec_and s d r, onlyRegister_aluApply ?_⟩
    cases s.params.logicMode with
    | logical => exact toNat_aluAnd_logical _ _
    | orAsAnd => exact toNat_aluAnd_orAsAnd _ _
    | bitwise => exact toNat_aluAnd_bitwise _ _
  case halt => exact fun s a b => haltsWith_outOfRange_of_regs s rfl rfl

/-- Settles O43: OR is the ALU's contract with the value its `LOGIC_MODE` gives. -/
theorem orResult : Obligations.OrResult := by
  refine ⟨?encoding, rfl, ?effect, ?halt⟩
  case encoding => exact fun a b => encodes_of_encode fun _ => rfl
  case effect =>
    intro s d r
    refine ⟨_, exec_or s d r, onlyRegister_aluApply ?_⟩
    cases s.params.logicMode with
    | logical => exact toNat_aluOr_logical _ _
    | orAsAnd => exact toNat_aluOr_orAsAnd _ _
    | bitwise => exact toNat_aluOr_bitwise _ _
  case halt => exact fun s a b => haltsWith_outOfRange_of_regs s rfl rfl

/-- Settles O44: XOR is the ALU's contract with the exclusive or, whatever the `LOGIC_MODE`. -/
theorem xorResult : Obligations.XorResult := by
  refine ⟨?encoding, rfl, ?effect, ?halt⟩
  case encoding => exact fun a b => encodes_of_encode fun _ => rfl
  case effect => exact fun s d r => ⟨_, exec_xor s d r, onlyRegister_aluApply (toNat_aluXor _ _)⟩
  case halt => exact fun s a b => haltsWith_outOfRange_of_regs s rfl rfl

end Sys2Proof.Machine
end

section
/-! Proofs of the statements about POP and PUSH (spec/43_stack.md R76, R77). -/

namespace Sys2Proof.Machine

/-- A pushed byte and a new PC change only SP, the cell at the decremented SP and PC (R74, R77, R80). -/
theorem onlyPush_setPc_pushByte (s : State) (v p : Byte) :
    OnlyPush s (setPc (pushByte s v) p) v.toNat p.toNat := by
  refine ⟨rfl, toNat_pushAddress s, ?cell, ?otherCells, rfl, fun _ => rfl, rfl, rfl, sameRest_refl s⟩
  case cell => rw [readByte_setPc, readByte_pushByte_same]
  case otherCells => exact fun _ ha => readByte_pushByte_other s v ha

/-- Settles O50: POP writes the cell at SP to one register, with the router's PC + 2. -/
theorem popResult : Obligations.PopResult := by
  refine ⟨?encoding, rfl, ?effect, ?halt⟩
  case encoding => exact fun a => encodes_of_encode fun _ => rfl
  case effect => exact fun s d => ⟨_, exec_pop s d, onlyRegister_setPc_setReg (pcAdvances_setPc_seq2 s _)⟩
  case halt => exact fun s a h => haltsWith_outOfRange_of_regA s rfl h

/-- Settles O51: PUSH is one pushed byte, the register's value, and the router's PC + 2. -/
theorem pushResult : Obligations.PushResult := by
  refine ⟨?encoding, rfl, ?effect, ?halt⟩
  case encoding => exact fun a => encodes_of_encode fun _ => rfl
  case effect =>
    intro s d
    refine ⟨_, exec_push s d, ?_⟩
    rw [← toNat_routePc_seq2]
    exact onlyPush_setPc_pushByte s (reg s d) (routePc .seq2 s)
  case halt => exact fun s a h => haltsWith_outOfRange_of_regA s rfl h

end Sys2Proof.Machine
end

section
/-! Proofs of the statements about CALL, RET and JMP (spec/44_control_flow.md R80 to R82). -/

namespace Sys2Proof.Machine

theorem toNat_returnAddress (s : State) : (returnAddress s).toNat = (s.pc.toNat + 2) % 256 := toNat_trunc8 _

/-- A new PC alone changes only PC (R78). -/
theorem onlyPc_setPc (s : State) (p : Byte) : OnlyPc s (setPc s p) p.toNat := by
  refine ⟨rfl, ?regs, rfl, rfl, ?mem, rfl, ?rest⟩
  all_goals simp

/-- Settles O52: CALL is one pushed byte, the return address, and the register's value as the new PC. -/
theorem callResult : Obligations.CallResult := by
  refine ⟨?encoding, rfl, ?effect, ?halt⟩
  case encoding => exact fun a => encodes_of_encode fun _ => rfl
  case effect =>
    intro s d
    refine ⟨_, exec_call s d, ?_⟩
    rw [← toNat_returnAddress]
    exact onlyPush_setPc_pushByte s (returnAddress s) (reg s d)
  case halt => exact fun s a h => haltsWith_outOfRange_of_regA s rfl h

/-- Settles O53: RET is the router's stack source, the cell at SP, as the new PC. -/
theorem retResult : Obligations.RetResult := by
  refine ⟨?encoding, rfl, ?effect⟩
  case encoding => exact encodes_of_encode fun _ => rfl
  case effect =>
    intro s
    refine ⟨_, exec_ret s, ?_⟩
    rw [routePc_stack]
    exact onlyPc_setPc s (readByte s s.sp)

/-- Settles O54: JMP is the register's value as the new PC. -/
theorem jmpResult : Obligations.JmpResult := by
  refine ⟨?encoding, rfl, ?effect, ?halt⟩
  case encoding => exact fun a => encodes_of_encode fun _ => rfl
  case effect => exact fun s d => ⟨_, exec_jmp s d, onlyPc_setPc s (reg s d)⟩
  case halt => exact fun s a h => haltsWith_outOfRange_of_regA s rfl h

end Sys2Proof.Machine
end

section
/-! Proofs of the statements about decoding and encoding (spec/30_encoding.md R39 to R45). -/

namespace Sys2Proof

/-! ## Which bytes have a row -/

/-- Under a legal map the dispatch table finds exactly the 21 opcode bytes (R43, R45). -/
theorem OpcodeMap.lookup_isSome_iff {m : OpcodeMap} (h : m.wf = true) (x : Byte) :
    (m.lookup x).isSome = true ↔ x ∈ allOps.map m.byteOf := by
  rw [Option.isSome_iff_exists, List.mem_map]
  constructor
  · rintro ⟨o, ho⟩
    exact ⟨o, mem_allOps o, m.byteOf_of_lookup ho⟩
  · rintro ⟨o, -, rfl⟩
    exact ⟨o, m.lookup_byteOf h o⟩

/-- All 256 bytes, in ascending order. -/
def allBytes : List Byte := (List.range 256).map (BitVec.ofNat 8)

theorem mem_allBytes (x : Byte) : x ∈ allBytes :=
  List.mem_map.2 ⟨x.toNat, List.mem_range.2 x.isLt, by simp⟩

theorem allBytes_nodup : allBytes.Nodup := by
  refine List.Nodup.map_on ?_ List.nodup_range
  intro a ha b hb e
  simpa [Nat.mod_eq_of_lt, List.mem_range.1 ha, List.mem_range.1 hb] using congrArg BitVec.toNat e

/-- Under a legal map 21 bytes have a row: the found bytes are the map's opcodes in another order. -/
theorem OpcodeMap.countP_lookup_isSome {m : OpcodeMap} (h : m.wf = true) :
    allBytes.countP (fun x => (m.lookup x).isSome) = 21 := by
  have hperm : (allBytes.filter (fun x => (m.lookup x).isSome)).Perm (allOps.map m.byteOf) := by
    rw [List.perm_ext_iff_of_nodup (allBytes_nodup.filter _) (m.wf_iff.1 h).1]
    intro x
    simp [mem_allBytes, lookup_isSome_iff h]
  rw [List.countP_eq_length_filter, hperm.length_eq]
  rfl

/-- Under a legal map the other 235 bytes have none. -/
theorem OpcodeMap.countP_lookup_isNone {m : OpcodeMap} (h : m.wf = true) :
    allBytes.countP (fun x => (m.lookup x).isNone) = 235 := by
  have hlen := allBytes.length_eq_countP_add_countP (fun x => (m.lookup x).isSome)
  have htotal : allBytes.length = 256 := by simp [allBytes]
  simp only [countP_lookup_isSome h, htotal, Bool.not_eq_true, Option.isSome_eq_false_iff, Bool.decide_eq_true] at hlen
  omega

end Sys2Proof

namespace Sys2Proof.Machine

/-- Settles O1: the table finds the opcode's row, whose operands are read back. -/
theorem decodeOfEncode : Obligations.DecodeOfEncode := fun _ i rest h => decode_encode h i rest

/-- Settles O2: a decode that succeeds found the opcode's row and took the operand bytes off the list. -/
theorem encodeOfDecode : Obligations.EncodeOfDecode := fun _ _ _ _ h => (decode_eq_ok h).1

/-- Settles O3: the words and the bytes of the default map are literals, none of them `OPC_ADDI`. -/
theorem wordsOfTheTableDecode : Obligations.WordsOfTheTableDecode := by
  unfold Obligations.WordsOfTheTableDecode
  decide

/-- Settles O4: 256 bytes less the 21 opcodes; the default map is legal and its lookup shuts 0x00 and 0xA1 out. -/
theorem allOtherBytesAreIllegal : Obligations.AllOtherBytesAreIllegal := by
  refine ⟨?count, legalAddi_opcAddi, rfl, rfl⟩
  case count =>
    intro m hm
    rw [← List.countP_eq_length_filter, ← m.countP_lookup_isNone hm, allBytes, List.countP_map]
    rfl

end Sys2Proof.Machine
end

section
/-! Proofs of the statements about CMP, NOT, SHL, SHR, MOD and ADDI (spec/42_alu.md R64, R69 to R73). -/

namespace Sys2Proof.Machine

/-! ## Values -/

variable (x y : Byte)

/-- The complement as a number (R69). -/
theorem toNat_aluNot : (aluNot x).toNat = 255 - x.toNat := by
  have hnot : aluNot x = ~~~x := by
    rw [aluNot, BitVec.xor_comm]
    exact BitVec.xor_allOnes
  rw [hnot, BitVec.toNat_not]

theorem toNat_aluShl : (aluShl x y).toNat = (x.toNat * 2 ^ y.toNat) % 256 := by
  rw [aluShl, toNat_trunc8, Nat.shiftLeft_eq]

/-- A right shift gives no more than it takes, so it fits in a byte (R71). -/
theorem toNat_aluShr : (aluShr x y).toNat = x.toNat / 2 ^ y.toNat := by
  rw [aluShr, toNat_trunc8, Nat.shiftRight_eq_div_pow]
  exact Nat.mod_eq_of_lt ((Nat.div_le_self _ _).trans_lt x.isLt)

/-- A remainder is no more than its dividend, so it fits in a byte (R72). -/
theorem toNat_aluMod : (aluMod x y).toNat = x.toNat % y.toNat := by
  rw [aluMod, toNat_trunc8]
  exact Nat.mod_eq_of_lt ((Nat.mod_le _ _).trans_lt x.isLt)

variable {x y}

theorem compareFlags_of_eq (h : x.toNat = y.toNat) : compareFlags x y = flagEqual := if_pos h
theorem compareFlags_of_gt (h : x.toNat > y.toNat) : compareFlags x y = flagGreater := by
  rw [compareFlags, if_neg h.ne', if_pos h]
theorem compareFlags_of_lt (h : x.toNat < y.toNat) : compareFlags x y = flagLess := by
  rw [compareFlags, if_neg h.ne, if_neg h.not_gt]

/-! ## The instructions -/

/-- Settles O41: CMP is one write of all of FL, by the unsigned order of the registers, and the router's PC + 3. -/
theorem cmpResult : Obligations.CmpResult := by
  refine ⟨?encoding, rfl, ?effect, ?halt⟩
  case encoding => exact fun a b => encodes_of_encode fun _ => rfl
  case effect =>
    intro s d r
    exact ⟨_, exec_cmp s d r, compareFlags_of_eq, compareFlags_of_gt, compareFlags_of_lt,
      pcAdvances_setPc_seq3 s _, fun _ => rfl, rfl, fun _ => rfl, rfl, sameRest_refl s⟩
  case halt => exact fun s a b => haltsWith_outOfRange_of_regs s rfl rfl

/-- Settles O45: NOT is one register write, the complement, and the router's PC + 2. -/
theorem notResult : Obligations.NotResult := by
  refine ⟨?encoding, rfl, ?effect, ?halt⟩
  case encoding => exact fun a => encodes_of_encode fun _ => rfl
  case effect =>
    intro s d
    refine ⟨_, exec_not s d, ?_⟩
    rw [← toNat_aluNot]
    exact onlyRegister_setPc_setReg (pcAdvances_setPc_seq2 s _)
  case halt => exact fun s a => haltsWith_outOfRange_of_regA s rfl

/-- Settles O46: SHL is the ALU's contract with the product by the power of two, modulo 256. -/
theorem shlResult : Obligations.ShlResult := by
  refine ⟨?encoding, rfl, ?effect, ?halt⟩
  case encoding => exact fun a b => encodes_of_encode fun _ => rfl
  case effect => exact fun s d r => ⟨_, exec_shl s d r, onlyRegister_aluApply (toNat_aluShl _ _)⟩
  case halt => exact fun s a b => haltsWith_outOfRange_of_regs s rfl rfl

/-- Settles O47: SHR is the ALU's contract with the floor division by the power of two. -/
theorem shrResult : Obligations.ShrResult := by
  refine ⟨?encoding, rfl, ?effect, ?halt⟩
  case encoding => exact fun a b => encodes_of_encode fun _ => rfl
  case effect => exact fun s d r => ⟨_, exec_shr s d r, onlyRegister_aluApply (toNat_aluShr _ _)⟩
  case halt => exact fun s a b => haltsWith_outOfRange_of_regs s rfl rfl

/-- Settles O48: MOD splits on the divisor: the ALU's contract with the remainder, or the report and the halt. -/
theorem modResult : Obligations.ModResult := by
  have hzero : ∀ v : Byte, v = 0 ↔ v.toNat = 0 := fun _ => BitVec.toNat_eq
  refine ⟨?encoding, rfl, ?effect, ?report, ?halt⟩
  case encoding => exact fun a b => encodes_of_encode fun _ => rfl
  case effect =>
    intro s d r h
    refine ⟨_, ?_, onlyRegister_aluApply (toNat_aluMod _ _)⟩
    rw [exec_mod, if_neg (mt (hzero _).1 h)]
  case report =>
    intro s d r h
    rw [exec_mod, if_pos ((hzero _).2 h)]
  case halt => exact fun s a b => haltsWith_outOfRange_of_regs s rfl rfl

/-- Settles O49: ADDI is one register write, the sum modulo 256 with the immediate, and the router's PC + 3. -/
theorem addiResult : Obligations.AddiResult := by
  refine ⟨?encoding, ?effect, ?halt⟩
  case encoding => exact fun a imm => encodes_of_encode fun _ => rfl
  case effect =>
    intro s d imm
    refine ⟨_, exec_addi s d imm, ?_⟩
    rw [← toNat_aluAdd]
    exact onlyRegister_setPc_setReg (pcAdvances_setPc_seq3 s _)
  case halt => exact fun s a imm => haltsWith_outOfRange_of_regA s rfl

end Sys2Proof.Machine
end

section
/-! Proofs of the statements about HLT, JEQ and JNE (spec/41_load_print_halt.md R58,
spec/44_control_flow.md R83, R84). -/

namespace Sys2Proof.Machine

/-- Settles O38: HLT raises HALT_OK, and a halted status with an empty queue has no step. -/
theorem hltResult : Obligations.HltResult := by
  refine ⟨encodes_of_encode fun _ => rfl, rfl, fun s => ⟨_, exec_hlt s, rfl⟩, ?noStep⟩
  case noStep =>
    intro s t h hq
    cases (exec_hlt s).symm.trans h
    rw [step_halted rfl, hostStep_nil _ hq]

/-- The test of JEQ and JNE, on the number in FL. -/
theorem fl_eq_one_iff (s : State) : s.fl = 0b00000001 ↔ s.fl.toNat = 1 := BitVec.toNat_eq

/-- Settles O55: JEQ changes only PC, to the register's value exactly when FL is the E pattern. -/
theorem jeqResult : Obligations.JeqResult := by
  refine ⟨?encoding, rfl, ?effect, ?halt⟩
  case encoding => exact fun a => encodes_of_encode fun _ => rfl
  case effect =>
    intro s d
    refine ⟨_, exec_jeq s d, ?_⟩
    simp only [← fl_eq_one_iff, ← toNat_routePc_seq2, ← apply_ite BitVec.toNat]
    exact onlyPc_setPc s _
  case halt => exact fun s a => haltsWith_outOfRange_of_regA s rfl

/-- Settles O56: JNE changes only PC, to the register's value exactly when FL is not the E pattern. -/
theorem jneResult : Obligations.JneResult := by
  refine ⟨?encoding, rfl, ?effect, ?halt⟩
  case encoding => exact fun a => encodes_of_encode fun _ => rfl
  case effect =>
    intro s d
    refine ⟨_, exec_jne s d, ?_⟩
    simp only [ne_eq, ite_not, ← fl_eq_one_iff, ← toNat_routePc_seq2, ← apply_ite BitVec.toNat]
    exact onlyPc_setPc s _
  case halt => exact fun s a => haltsWith_outOfRange_of_regA s rfl

/-- Settles O35: the two meanings are one test with its branches exchanged. -/
theorem jeqAndJneAreComplements : Obligations.JeqAndJneAreComplements := by
  intro s d
  refine ⟨_, _, exec_jeq s d, exec_jne s d, ?_⟩
  by_cases h : s.fl = 0b00000001
  · simp only [if_pos h]
    exact .inl ⟨rfl, pcAdvances_setPc_seq2 s s, h⟩
  · simp only [if_neg h]
    exact .inr ⟨pcAdvances_setPc_seq2 s s, rfl, h⟩

end Sys2Proof.Machine
end

section
/-! Proofs of the statements about several instructions together (spec/43_stack.md R74, R76,
spec/44_control_flow.md R79, R81). -/

namespace Sys2Proof.Machine

/-- After a push the cell at SP holds the byte pushed (R27, R51). -/
theorem readByte_sp_pushByte (s : State) (v p : Byte) :
    readByte (setPc (pushByte s v) p) (setPc (pushByte s v) p).sp = v :=
  readByte_pushByte_same s v

/-- Settles O30: the POP reads the cell that the PUSH wrote, since SP still points at it. -/
theorem pushThenPop : Obligations.PushThenPop := by
  intro s t u d e ht hu
  cases (exec_push _ _).symm.trans ht
  cases (exec_pop _ _).symm.trans hu
  refine ⟨?value, rfl, toNat_pushAddress s⟩
  case value => rw [reg_setPc, reg_setReg_same, readByte_sp_pushByte]

/-- Settles O31: neither POP nor RET writes SP or memory. -/
theorem popAndRetReadTheSameCellAgain : Obligations.PopAndRetReadTheSameCellAgain := by
  intro s t u d e
  constructor
  · intro ht hu
    cases (exec_pop _ _).symm.trans ht
    cases (exec_pop _ _).symm.trans hu
    simp
  · intro ht hu
    cases (exec_ret _).symm.trans ht
    cases (exec_ret _).symm.trans hu
    exact ⟨rfl, rfl, rfl⟩

/-- Settles O32: the RET reads the return address that the CALL wrote. -/
theorem callThenRet : Obligations.CallThenRet := by
  intro s t u d ht hu
  cases (exec_call _ _).symm.trans ht
  cases (exec_ret _).symm.trans hu
  refine ⟨rfl, ?target, rfl⟩
  case target => rw [setPc_pc, routePc_stack, readByte_sp_pushByte, toNat_returnAddress]

/-- Settles O33: the inner CALL is followed by its RET, and the second RET reads the same cell again. -/
theorem nestedCallReturnsToInner : Obligations.NestedCallReturnsToInner := by
  intro s t u v w d e p _ hu hv hw
  refine ⟨(callThenRet t u v e hu hv).2.1, ?again⟩
  case again =>
    cases (exec_ret _).symm.trans hv
    cases (exec_ret _).symm.trans hw
    rfl

end Sys2Proof.Machine
end

section
/-! SUPPORT. What one instruction can do, said once: the twelve kinds of effect, and what each leaves unchanged. -/

namespace Sys2Proof.Machine

/-! ## The kinds of effect -/

/-- The source of the next PC of each row that writes a register (R13, R78). -/
def registerSelect : Op → Option PcSelect
  | .ldi | .add | .mul | .and | .or | .xor | .shl | .shr | .mod | .addi => some .seq3
  | .not | .pop => some .seq2
  | .hlt | .ret | .push | .prn | .call | .jmp | .jeq | .jne | .cmp => none

/-- What an instruction does to a state: every answer of `exec` is one of these (`exec_effect`). -/
inductive Effect (s : State) : Instr → State → Prop where
  | outOfRange {i : Instr} (hi : i.WellFormed = false) : Effect s i { s with status := .halted .outOfRange }
  | hlt : Effect s .hlt { s with status := .halted .ok }
  | zeroDivisor {d r : RegIdx} (h0 : reg s r = 0) :
      Effect s (.mod (indexByte d) (indexByte r))
        { s with status := .halted .divByZero, out := s.out ++ [.divByZero] }
  | register {i : Instr} {sel : PcSelect} {d : RegIdx} (v : Byte) (hi : registerSelect i.op = some sel)
      (ha : i.regA = some (indexByte d)) : Effect s i (setPc (setReg s d v) (routePc sel s))
  | flags (d r : RegIdx) : Effect s (.cmp (indexByte d) (indexByte r))
      (setPc (setFl s (compareFlags (reg s d) (reg s r))) (routePc .seq3 s))
  | event (d : RegIdx) : Effect s (.prn (indexByte d)) (setPc (emit s (.value (reg s d))) (routePc .seq2 s))
  | push (d : RegIdx) : Effect s (.push (indexByte d)) (setPc (pushByte s (reg s d)) (routePc .seq2 s))
  | call (d : RegIdx) : Effect s (.call (indexByte d)) (setPc (pushByte s (returnAddress s)) (reg s d))
  | ret : Effect s .ret (setPc s (readByte s s.sp))
  | jmp (d : RegIdx) : Effect s (.jmp (indexByte d)) (setPc s (reg s d))
  | jeq (d : RegIdx) : Effect s (.jeq (indexByte d))
      (setPc s (if s.fl = 0b00000001 then reg s d else routePc .seq2 s))
  | jne (d : RegIdx) : Effect s (.jne (indexByte d))
      (setPc s (if s.fl = 0b00000001 then routePc .seq2 s else reg s d))

/-- A row of the ALU's contract has the effect of a register write (R59). -/
theorem effect_aluApply (s : State) (f : Byte → Byte → Byte) {i : Instr} {d r : RegIdx}
    (hi : registerSelect i.op = some .seq3) (ha : i.regA = some (indexByte d)) : Effect s i (aluApply f d r s) :=
  .register (f (reg s d) (reg s r)) hi ha

/-- Every instruction has a next state, by one of the effects (R52). -/
theorem exec_effect (i : Instr) (s : State) : ∃ t, exec i s = .next t ∧ Effect s i t := by
  cases hw : i.WellFormed with
  | false => exact ⟨_, exec_illFormed s hw, .outOfRange hw⟩
  | true =>
    cases inRange_of_wellFormed hw with
    | hlt => exact ⟨_, exec_hlt s, .hlt⟩
    | ret => exact ⟨_, exec_ret s, .ret⟩
    | push d => exact ⟨_, exec_push s d, .push d⟩
    | pop d => exact ⟨_, exec_pop s d, .register _ rfl rfl⟩
    | prn d => exact ⟨_, exec_prn s d, .event d⟩
    | call d => exact ⟨_, exec_call s d, .call d⟩
    | jmp d => exact ⟨_, exec_jmp s d, .jmp d⟩
    | jeq d => exact ⟨_, exec_jeq s d, .jeq d⟩
    | jne d => exact ⟨_, exec_jne s d, .jne d⟩
    | not d => exact ⟨_, exec_not s d, .register _ rfl rfl⟩
    | ldi d imm => exact ⟨_, exec_ldi s d imm, .register _ rfl rfl⟩
    | addi d imm => exact ⟨_, exec_addi s d imm, .register _ rfl rfl⟩
    | add d r => exact ⟨_, exec_add s d r, effect_aluApply s _ rfl rfl⟩
    | mul d r => exact ⟨_, exec_mul s d r, effect_aluApply s _ rfl rfl⟩
    | cmp d r => exact ⟨_, exec_cmp s d r, .flags d r⟩
    | and d r => exact ⟨_, exec_and s d r, effect_aluApply s _ rfl rfl⟩
    | or d r => exact ⟨_, exec_or s d r, effect_aluApply s _ rfl rfl⟩
    | xor d r => exact ⟨_, exec_xor s d r, effect_aluApply s _ rfl rfl⟩
    | shl d r => exact ⟨_, exec_shl s d r, effect_aluApply s _ rfl rfl⟩
    | shr d r => exact ⟨_, exec_shr s d r, effect_aluApply s _ rfl rfl⟩
    | mod d r =>
      by_cases h0 : reg s r = 0
      · exact ⟨_, (exec_mod s d r).trans (if_pos h0), .zeroDivisor h0⟩
      · exact ⟨_, (exec_mod s d r).trans (if_neg h0), effect_aluApply s _ rfl rfl⟩

theorem effect_of_exec {i : Instr} {s t : State} (h : exec i s = .next t) : Effect s i t := by
  obtain ⟨u, hu, he⟩ := exec_effect i s
  cases hu.symm.trans h
  exact he

/-! ## What an effect leaves unchanged -/

namespace Effect

variable {s t : State} {i : Instr}

/-- No instruction touches the host's side or the parameters (R7, R86). -/
theorem hostSide (h : Effect s i t) :
    t.hostQueue = s.hostQueue ∧ t.hostReplies = s.hostReplies ∧ t.params = s.params := by
  cases h
  all_goals exact ⟨rfl, rfl, rfl⟩

/-- The status stays, or the instruction halts the machine for one of three reasons, changing nothing else but the
output port (R93). -/
theorem status_cases (h : Effect s i t) :
    t.status = s.status ∨
    (i.WellFormed = false ∧ t = { s with status := .halted .outOfRange }) ∨
    (i = .hlt ∧ t = { s with status := .halted .ok }) ∨
    ∃ d r, i = .mod (indexByte d) (indexByte r) ∧ reg s r = 0 ∧
      t = { s with status := .halted .divByZero, out := s.out ++ [.divByZero] } := by
  cases h
  case outOfRange hi => exact .inr (.inl ⟨hi, rfl⟩)
  case hlt => exact .inr (.inr (.inl ⟨rfl, rfl⟩))
  case zeroDivisor d r h0 => exact .inr (.inr (.inr ⟨d, r, rfl, h0, rfl⟩))
  all_goals exact .inl rfl

/-- Memory stays, or the instruction is a well-formed PUSH or CALL and pushes one byte (R27, R51). -/
theorem push_cases (h : Effect s i t) :
    (t.sp = s.sp ∧ t.mem = s.mem ∧ ¬ (i.WellFormed = true ∧ (i.op = .push ∨ i.op = .call))) ∨
    ((i.op = .push ∨ i.op = .call) ∧ i.WellFormed = true ∧ ∃ v p, t = setPc (pushByte s v) p) := by
  cases h
  case outOfRange hi => exact .inl ⟨rfl, rfl, by simp [hi]⟩
  case register sel d v hi ha =>
    refine .inl ⟨rfl, rfl, ?_⟩
    rintro ⟨-, hop | hop⟩
    all_goals simp [hop, registerSelect] at hi
  case push d => exact .inr ⟨.inl rfl, by simp [Instr.WellFormed, Instr.regA, Instr.regB], _, _, rfl⟩
  case call d => exact .inr ⟨.inr rfl, by simp [Instr.WellFormed, Instr.regA, Instr.regB], _, _, rfl⟩
  all_goals exact .inl ⟨rfl, rfl, by simp [Instr.op]⟩

/-- FL stays, or CMP writes one of its three patterns (R61, R64). -/
theorem fl_cases (h : Effect s i t) : t.fl = s.fl ∨ ∃ x y, t.fl = compareFlags x y := by
  cases h
  case flags d r => exact .inr ⟨_, _, rfl⟩
  all_goals exact .inl rfl

/-- The output port stays, or takes PRN's value, or takes MOD's report with its halt (R55). -/
theorem out_cases (h : Effect s i t) :
    (t.out = s.out ∧ (t.status = .halted .divByZero → s.status = .halted .divByZero)) ∨
    (∃ d, i = .prn (indexByte d) ∧ t.out = s.out ++ [.value (reg s d)] ∧ t.status = s.status) ∨
    ∃ d r, i = .mod (indexByte d) (indexByte r) ∧ reg s r = 0 ∧ t.out = s.out ++ [.divByZero] ∧
      t.status = .halted .divByZero := by
  cases h
  case event d => exact .inr (.inl ⟨d, rfl, rfl, rfl⟩)
  case zeroDivisor d r h0 => exact .inr (.inr ⟨d, r, rfl, h0, rfl, rfl⟩)
  case outOfRange => exact .inl ⟨rfl, nofun⟩
  case hlt => exact .inl ⟨rfl, nofun⟩
  all_goals exact .inl ⟨rfl, id⟩

/-- The registers stay, or a writing row writes the register that its slot A names (R13). -/
theorem regs_cases (h : Effect s i t) :
    t.regs = s.regs ∨
    ∃ sel d v, registerSelect i.op = some sel ∧ i.regA = some (indexByte d) ∧ t.regs = s.regs.set d v := by
  cases h
  case register sel d v hi ha => exact .inr ⟨sel, d, v, hi, ha, rfl⟩
  all_goals exact .inl rfl

end Effect

/-! ## The halting condition -/

/-- What an instruction has to be, in a state, to halt the machine for a reason: the index check first, then its own
condition (R87, R92). -/
def HaltsFor (i : Instr) (s : State) : HaltReason → Prop
  | .ok => i = .hlt
  | .unknownOpcode => False
  | .outOfRange => i.WellFormed = false
  | .divByZero => ∃ d r, i = .mod (indexByte d) (indexByte r) ∧ reg s r = 0

/-- An instruction of a RUNNING machine halts it for a reason exactly when the reason's condition holds. -/
theorem exec_halted_iff {i : Instr} {s t : State} (hs : s.status = .running) (h : exec i s = .next t)
    (why : HaltReason) : t.status = .halted why ↔ HaltsFor i s why := by
  constructor
  · intro ht
    obtain hsame | ⟨hw, rfl⟩ | ⟨hi, rfl⟩ | ⟨d, r, hi, h0, rfl⟩ := (effect_of_exec h).status_cases
    · cases hs.symm.trans (hsame.symm.trans ht)
    · cases ht
      exact hw
    · cases ht
      exact hi
    · cases ht
      exact ⟨d, r, hi, h0⟩
  · intro hf
    cases why with
    | unknownOpcode => exact hf.elim
    | ok =>
      obtain rfl : i = .hlt := hf
      cases (exec_hlt s).symm.trans h
      rfl
    | outOfRange =>
      cases (exec_illFormed s hf).symm.trans h
      rfl
    | divByZero =>
      obtain ⟨d, r, rfl, h0⟩ := hf
      rw [exec_mod, if_pos h0] at h
      cases h
      rfl

/-- A RUNNING machine is RUNNING or halted after an instruction (R47). -/
theorem exec_running_or_halted {i : Instr} {s t : State} (hs : s.status = .running) (h : exec i s = .next t) :
    t.status = .running ∨ ∃ why, t.status = .halted why := by
  obtain hsame | ⟨-, rfl⟩ | ⟨-, rfl⟩ | ⟨-, -, -, -, rfl⟩ := (effect_of_exec h).status_cases
  · exact .inl (hsame.trans hs)
  all_goals exact .inr ⟨_, rfl⟩

end Sys2Proof.Machine
end

section
/-! Proofs of the statements that hold of every instruction (spec/10_state.md R13, R15, R17, spec/20_memory.md R27,
spec/41_load_print_halt.md R55, spec/42_alu.md R65, spec/40_fetch_decode.md R50). -/

namespace Sys2Proof.Machine

/-- Settles O11: an index byte of 8..255 in either slot makes the instruction ill-formed. -/
theorem indexOutOfRangeHalts : Obligations.IndexOutOfRangeHalts := by
  rintro i s (⟨a, ha, h⟩ | ⟨b, hb, h⟩)
  · exact exec_illFormed s (wellFormed_eq_false_of_regA ha h)
  · exact exec_illFormed s (wellFormed_eq_false_of_regB hb h)

/-- Settles O23: the effects that move SP are the two pushes. -/
theorem onlyPushAndCallMoveSp : Obligations.OnlyPushAndCallMoveSp := by
  intro i s t h
  obtain ⟨hsp, -, -⟩ | ⟨hop, hw, v, p, rfl⟩ := (effect_of_exec h).push_cases
  · exact .inl hsp
  · exact .inr ⟨hop, hw, toNat_pushAddress s⟩

/-- Settles O24: the effects that write memory are the two pushes, which leave every other cell alone. -/
theorem onlyPushAndCallWriteMemory : Obligations.OnlyPushAndCallWriteMemory := by
  intro i s t a h hne
  obtain ⟨-, hmem, -⟩ | ⟨hop, -, v, p, rfl⟩ := (effect_of_exec h).push_cases
  · exact absurd (congrArg (memRead · a.toNat) hmem) hne
  · refine ⟨hop, ?address⟩
    case address =>
      by_contra ha
      exact hne (readByte_pushByte_other s v ha)

/-- The writing rows are those of the table (R13). -/
theorem op_of_registerSelect {o : Op} {sel : PcSelect} (h : registerSelect o = some sel) :
    o ∈ [Op.ldi, .add, .mul, .and, .or, .xor, .shl, .shr, .mod, .not, .addi, .pop] := by
  cases o <;> simp [registerSelect] at h ⊢

/-- Settles O25: a register write leaves every register but its own alone. -/
theorem onlyDestinationRegisterWritten : Obligations.OnlyDestinationRegisterWritten := by
  intro i s t r h hne
  obtain hregs | ⟨sel, d, v, hop, ha, hregs⟩ := (effect_of_exec h).regs_cases
  · exact absurd (congrArg (Regs.get · r) hregs) hne
  · have hr : r = d := by
      by_contra hrd
      exact hne ((congrArg (Regs.get · r) hregs).trans (s.regs.get_set_other v hrd))
    exact ⟨hr ▸ ha, op_of_registerSelect hop⟩

/-- Settles O27: the effects that send an event are PRN's and the zero divisor's. -/
theorem outputEventsBySource : Obligations.OutputEventsBySource := by
  intro i s t h
  obtain ⟨hout, -⟩ | ⟨d, hi, hout, -⟩ | hmod := (effect_of_exec h).out_cases
  · exact .inl hout
  · exact .inr (.inl ⟨d, hi, hout⟩)
  · exact .inr (.inr hmod)

@[simp] theorem indexByte_inj_iff (d r : RegIdx) : indexByte d = indexByte r ↔ d = r :=
  ⟨indexByte_inj, congrArg indexByte⟩

/-- Settles O26: an instruction that halts is one of the three that leave PC alone; the others route PC as their row
says. -/
theorem nextPcBySelect : Obligations.NextPcBySelect := by
  intro i s t hs h
  constructor
  · rintro ⟨why, hwhy⟩
    obtain hsame | ⟨-, rfl⟩ | ⟨-, rfl⟩ | ⟨-, -, -, -, rfl⟩ := (effect_of_exec h).status_cases
    · cases hs.symm.trans (hsame.symm.trans hwhy)
    all_goals rfl
  · intro ht
    cases effect_of_exec h
    case outOfRange => cases ht
    case zeroDivisor => cases ht
    case register sel d v hi ha =>
      generalize i.op = o at hi ⊢
      cases o <;> cases hi <;> simp [pcAdvances_setPc_seq2, pcAdvances_setPc_seq3]
    case jeq d => by_cases he : s.fl = 1#8 <;> simp [Instr.op, Instr.regA, he, pcAdvances_setPc_seq2]
    case jne d => by_cases he : s.fl = 1#8 <;> simp [Instr.op, Instr.regA, he, pcAdvances_setPc_seq2]
    all_goals simp [Instr.op, Instr.regA, pcAdvances_setPc_seq2, pcAdvances_setPc_seq3]

/-- Settles O28: the meanings of AND and OR alone read `LOGIC_MODE`, so every other one answers the same updates. -/
theorem logicModeAffectsOnlyAndOr : Obligations.LogicModeAffectsOnlyAndOr := by
  intro i s t mode hand hor h
  cases hw : i.WellFormed with
  | false =>
    rw [exec_illFormed _ hw] at h ⊢
    cases h
    rfl
  | true =>
    cases inRange_of_wellFormed hw
    case and => exact absurd rfl hand
    case or => exact absurd rfl hor
    case mod d r =>
      rw [exec_mod] at h ⊢
      by_cases h0 : reg s r = 0
      · rw [if_pos h0] at h
        cases h
        exact if_pos h0
      · rw [if_neg h0] at h
        cases h
        exact if_neg h0
    all_goals
      simp only [exec_hlt, exec_ret, exec_push, exec_pop, exec_prn, exec_call, exec_jmp, exec_jeq, exec_jne, exec_not,
        exec_ldi, exec_add, exec_mul, exec_cmp, exec_xor, exec_shl, exec_shr, exec_addi] at h ⊢
      cases h
      rfl

end Sys2Proof.Machine
end

section
/-! SUPPORT. What one step can do, in each status, said once (spec/40_fetch_decode.md R47 to R52). -/

namespace Sys2Proof.Machine

variable {s t : State}

/-! ## The fetched bytes -/

theorem pcPlus_eq (s : State) (k : Nat) : pcPlus s k = s.pc + BitVec.ofNat 8 k := by
  rw [pcPlus, trunc8, BitVec.ofNat_add, BitVec.ofNat_toNat, BitVec.setWidth_eq]

theorem pcPlus_zero (s : State) : pcPlus s 0 = s.pc := by simp [pcPlus_eq]

/-- The bytes a fetch reads, by addresses modulo 256 (R48, D5). -/
theorem fetchBytes_eq (s : State) :
    fetchBytes s = [readByte s s.pc, readByte s (s.pc + 1), readByte s (s.pc + 2)] := by
  simp [fetchBytes, pcPlus_eq]

/-! ## A step of a RUNNING machine -/

theorem step_of_decode {i : Instr} {rest : List Byte} (hs : s.status = .running)
    (hd : decode s.params.opcodes (fetchBytes s) = .ok (i, rest)) : step s = exec i (fetch s) := by
  have hb : decode s.params.opcodes (latchBytes (fetch s)) = .ok (i, rest) := hd
  simp only [step_running hs, instrStep, hb]

theorem decode_fetchBytes_ne_ok (hl : s.params.opcodes.lookup (readByte s (pcPlus s 0)) = none)
    (p : Instr × List Byte) : decode s.params.opcodes (fetchBytes s) ≠ .ok p := by
  simp [decode, fetchBytes, hl]

theorem step_of_lookup_eq_none (hs : s.status = .running)
    (hl : s.params.opcodes.lookup (readByte s (pcPlus s 0)) = none) :
    step s = .next { fetch s with status := .halted .unknownOpcode } := by
  rw [step_running hs]
  obtain ⟨i, rest, hd, -⟩ | ⟨-, h⟩ := instrStep_cases s
  · exact absurd hd (decode_fetchBytes_ne_ok hl _)
  · exact h

/-- Everything a step of a RUNNING machine can do (R49, R52). -/
theorem step_running_cases (hs : s.status = .running) (h : step s = .next t) :
    (∃ i rest, decode s.params.opcodes (fetchBytes s) = .ok (i, rest) ∧ exec i (fetch s) = .next t) ∨
    (s.params.opcodes.lookup (readByte s (pcPlus s 0)) = none ∧
      t = { fetch s with status := .halted .unknownOpcode }) := by
  rw [step_running hs] at h
  obtain ⟨i, rest, hd, hi⟩ | ⟨hl, hu⟩ := instrStep_cases s
  · exact .inl ⟨i, rest, hd, hi.symm.trans h⟩
  · cases hu.symm.trans h
    exact .inr ⟨hl, rfl⟩

/-- A RUNNING machine has a next state, in which it is RUNNING or halted (R47). -/
theorem step_running_next (hs : s.status = .running) :
    ∃ t, step s = .next t ∧ (t.status = .running ∨ ∃ why, t.status = .halted why) := by
  obtain ⟨i, rest, hd, -⟩ | ⟨hl, -⟩ := instrStep_cases s
  · obtain ⟨t, ht, -⟩ := exec_effect i (fetch s)
    exact ⟨t, (step_of_decode hs hd).trans ht, exec_running_or_halted (s := fetch s) hs ht⟩
  · exact ⟨_, step_of_lookup_eq_none hs hl, .inr ⟨_, rfl⟩⟩

/-- A step of a RUNNING machine leaves the host's side and the parameters alone (R7, R86). -/
theorem step_running_hostSide (hs : s.status = .running) (h : step s = .next t) :
    t.hostQueue = s.hostQueue ∧ t.hostReplies = s.hostReplies ∧ t.params = s.params := by
  obtain ⟨i, rest, -, hi⟩ | ⟨-, rfl⟩ := step_running_cases hs h
  · exact (effect_of_exec hi).hostSide
  · exact ⟨rfl, rfl, rfl⟩

/-! ## A step outside RUNNING -/

/-- Outside RUNNING a step is the host's (R47). -/
theorem step_not_running_eq_hostStep (hs : s.status ≠ .running) : ∃ f, step s = hostStep f s := by
  cases hst : s.status with
  | running => exact absurd hst hs
  | idle => exact ⟨_, step_idle hst⟩
  | halted why => exact ⟨_, step_halted hst⟩

theorem step_not_running {act : HostAction} {rest : List HostAction} (hs : s.status ≠ .running)
    (hq : s.hostQueue = act :: rest) : step s = .next (hostAct act { s with hostQueue := rest }) := by
  obtain ⟨f, hf⟩ := step_not_running_eq_hostStep hs
  exact hf.trans (hostStep_cons f hq)

/-- Outside RUNNING a next state is the work of the host's queued action (R47). -/
theorem step_not_running_cases (hs : s.status ≠ .running) (h : step s = .next t) :
    ∃ act rest, s.hostQueue = act :: rest ∧ t = hostAct act { s with hostQueue := rest } := by
  obtain ⟨f, hf⟩ := step_not_running_eq_hostStep hs
  obtain ⟨act, rest, hq, ht⟩ | ⟨-, ht⟩ := hostStep_cases f (hf.symm.trans h)
  · cases ht
    exact ⟨act, rest, hq, rfl⟩
  · cases ht

end Sys2Proof.Machine
end

section
/-! SUPPORT. What each action of the host does (spec/20_memory.md R36, spec/40_fetch_decode.md R47,
spec/60_exceptions.md R94, spec/70_reset_and_hazards.md R97). -/

namespace Sys2Proof.Machine

variable {s : State}

theorem hostLoad_accepted {bytes : List Byte} (hs : s.status = .idle) (hlen : bytes.length ≤ 256) :
    hostLoad bytes s = reply (loadImage s bytes) .accepted := if_pos ⟨hs, hlen⟩

theorem hostLoad_refused {bytes : List Byte} (h : s.status ≠ .idle ∨ 256 < bytes.length) :
    hostLoad bytes s = reply s .refused :=
  if_neg fun ⟨hs, hlen⟩ => h.elim (absurd hs) (Nat.not_lt.2 hlen)

theorem hostRun_idle (hs : s.status = .idle) : hostRun s = reply { s with status := .running } .accepted := if_pos hs

theorem hostRun_refused (hs : s.status ≠ .idle) : hostRun s = reply s .refused := if_neg hs

/-- A queued load that fits is accepted by an IDLE machine's step (R36). -/
theorem step_idle_load {bytes : List Byte} {rest : List HostAction} (hs : s.status = .idle)
    (hq : s.hostQueue = .load bytes :: rest) (hlen : bytes.length ≤ 256) :
    step s = .next (reply (loadImage { s with hostQueue := rest } bytes) .accepted) := by
  rw [step_idle hs, hostStep_cons _ hq]
  exact congrArg Host.Outcome.next (hostLoad_accepted hs hlen)

/-- A queued run starts an IDLE machine by its step (R47). -/
theorem step_idle_run {rest : List HostAction} (hs : s.status = .idle) (hq : s.hostQueue = .run :: rest) :
    step s = .next (reply { s with hostQueue := rest, status := .running } .accepted) := by
  rw [step_idle hs, hostStep_cons _ hq]
  exact congrArg Host.Outcome.next (hostRun_idle hs)

/-- Byte `n` of an image that fits is in cell `n` after the load (R36). -/
theorem readByte_loadImage_same {bytes : List Byte} (hlen : bytes.length ≤ 256) {n : Nat} (hn : n < bytes.length) :
    readByte (loadImage s bytes) (BitVec.ofNat 8 n) = bytes[n] := by
  have haddr : (BitVec.ofNat 8 n).toNat = 0 + n := by
    rw [BitVec.toNat_ofNat, Nat.zero_add]
    exact Nat.mod_eq_of_lt (hn.trans_le hlen)
  rw [readByte, haddr]
  exact memRead_memWriteFrom_same bytes s.mem 0 hn

/-- Cells from the image's end on are as before the load (R36). -/
theorem readByte_loadImage_other {bytes : List Byte} {a : Byte} (ha : bytes.length ≤ a.toNat) :
    readByte (loadImage s bytes) a = readByte s a :=
  memRead_memWriteFrom_other bytes s.mem (.inr (by omega))

theorem reg_reset (r : RegIdx) : reg State.reset r = 0x00 := by fin_cases r <;> rfl

/-- Memory lists nothing after reset, so every cell reads 0x00 (R24, D14). -/
theorem readByte_reset (a : Byte) : readByte State.reset a = 0x00 := rfl

end Sys2Proof.Machine
end

section
/-! Proofs of the statements about the engine cycle (spec/40_fetch_decode.md R47 to R54, spec/60_exceptions.md R92, R93,
spec/10_state.md R22). -/

namespace Sys2Proof.Machine

/-- Settles O5: the three addresses are PC, PC + 1 and PC + 2 modulo 256. -/
theorem fetchLatchesThreeBytes : Obligations.FetchLatchesThreeBytes := by
  intro s
  refine ⟨?all, ?atFE, ?atFF⟩
  case all => simp [fetch, pcPlus_eq]
  case atFE =>
    intro h
    simp [pcPlus_eq, h]
  case atFF =>
    intro h
    simp [pcPlus_eq, h]

/-- Settles O6: the latches hold the bytes that decode. -/
theorem stepRunsDecodedInstruction : Obligations.StepRunsDecodedInstruction := by
  intro s i rest hs hd
  rw [← fetchBytes_eq] at hd
  exact step_of_decode hs hd

/-- Settles O7: the table finds the row of its byte, and two operand bytes are enough for every row; a byte that no row
has is not found. -/
theorem dispatchByOpcode : Obligations.DispatchByOpcode := by
  intro s hs
  constructor
  · intro hm o ho
    obtain ⟨i, rest, hi⟩ := decodeOperands_two o (readByte s (s.pc + 1)) (readByte s (s.pc + 2))
    have hd : decode s.params.opcodes (fetchBytes s) = .ok (i, rest) := by
      simp only [fetchBytes_eq, decode, ← ho, OpcodeMap.lookup_byteOf hm, hi]
    exact ⟨i, rest, (decodeOperands_eq_ok hi).1, hd, step_of_decode hs hd⟩
  · intro hno
    rw [← pcPlus_zero s] at hno
    exact step_of_lookup_eq_none hs (OpcodeMap.lookup_eq_none hno)

/-- Settles O8: every instruction and the unknown-opcode halt answer a next state. -/
theorem runningStepAnswersNext : Obligations.RunningStepAnswersNext := by
  intro s hs
  obtain ⟨t, ht, hst⟩ := step_running_next hs
  exact ⟨t, ht, hst, step_running_hostSide hs ht⟩

/-- Settles O9: a halted next state comes from one of the four halts, each of which changes nothing else. -/
theorem haltsArePrecise : Obligations.HaltsArePrecise := by
  intro s t why hs h ht
  obtain ⟨i, rest, -, hi⟩ | ⟨-, rfl⟩ := step_running_cases hs h
  · obtain hsame | ⟨-, rfl⟩ | ⟨-, rfl⟩ | ⟨-, -, -, -, rfl⟩ := (effect_of_exec hi).status_cases
    · cases hs.symm.trans (hsame.symm.trans ht)
    all_goals
      cases ht
      rfl
  · cases ht
    rfl

/-- Settles O10: each clause is the halting condition of its reason, on the state after the fetch. -/
theorem haltReasonByPriority : Obligations.HaltReasonByPriority := by
  intro s t i rest hs hd h
  have hiff := exec_halted_iff (s := fetch s) hs ((step_of_decode hs hd).symm.trans h)
  exact ⟨(hiff .unknownOpcode).1, hiff .outOfRange, hiff .ok, hiff .divByZero⟩

/-- The host's action shows the same whatever the latches hold (R22, R54). -/
theorem observe_hostAct_latches (act : HostAction) (s : State) (x y z : Byte) :
    observe (hostAct act { s with ir := x, latchA := y, latchB := z }) = observe (hostAct act s) := by
  cases act with
  | reset => rfl
  | load bytes =>
    simp only [hostAct, hostLoad]
    split <;> rfl
  | run =>
    simp only [hostAct, hostRun]
    split <;> rfl

/-- Settles O12: the fetch overwrites the latches, and no action of the host reads them. -/
theorem latchesAreUnobservable : Obligations.LatchesAreUnobservable := by
  intro s x y z
  have hrun : s.status = .running → step { s with ir := x, latchA := y, latchB := z } = step s := by
    intro hs
    rw [step_running hs, step_running (s := { s with ir := x, latchA := y, latchB := z }) hs]
    rfl
  refine ⟨hrun, ?_⟩
  intro t h
  by_cases hs : s.status = .running
  · exact ⟨t, (hrun hs).trans h, rfl⟩
  · obtain ⟨act, rest, hq, rfl⟩ := step_not_running_cases hs h
    refine ⟨_, ?_, observe_hostAct_latches act { s with hostQueue := rest } x y z⟩
    exact step_not_running hs hq

/-- Settles O13: HALT_OK is HLT's halt alone, and a RUNNING machine never leaves for IDLE. -/
theorem onlyHltSucceeds : Obligations.OnlyHltSucceeds := by
  intro s t hs h
  constructor
  · obtain ⟨i, rest, hd, hi⟩ | ⟨hl, rfl⟩ := step_running_cases hs h
    · refine (exec_halted_iff (s := fetch s) hs hi .ok).trans ?_
      constructor
      · rintro rfl
        exact ⟨rest, hd⟩
      · rintro ⟨rest', hd'⟩
        cases hd.symm.trans hd'
        rfl
    · constructor
      · nofun
      · rintro ⟨rest, hd⟩
        exact absurd hd (decode_fetchBytes_ne_ok hl _)
  · intro hne
    obtain ⟨u, hu, hst⟩ := step_running_next hs
    cases hu.symm.trans h
    obtain ⟨why, hwhy⟩ := hst.resolve_left hne
    by_cases hok : why = .ok
    · subst hok
      exact .inl hwhy
    · exact .inr ⟨why, hwhy, hok⟩

/-- Settles O34: the operand comes from the latches, and the pushed byte is what memory then holds at SP - 1. -/
theorem pushOnItsOwnBytes : Obligations.PushOnItsOwnBytes := by
  intro s d hm hs hop ha
  have hd : decode s.params.opcodes (fetchBytes s) = .ok (.push (indexByte d), [readByte s (s.pc + 2)]) := by
    rw [fetchBytes_eq, hop, ha]
    exact decode_encode hm (.push (indexByte d)) _
  refine ⟨_, (step_of_decode hs hd).trans (exec_push (fetch s) d), rfl, ?cell, ?others, ?pc, fun _ => rfl, rfl, hs,
    ?next⟩
  case cell => exact readByte_pushByte_same (fetch s) (reg s d)
  case others => exact fun a h => readByte_pushByte_other (fetch s) (reg s d) h
  case pc => exact pcPlus_eq s 2
  case next =>
    intro hpc
    rw [fetch_ir, pcPlus_zero, hpc]
    exact readByte_pushByte_same (fetch s) (reg s d)

end Sys2Proof.Machine
end

section
/-! Proofs of the statements about reset, boot and the host (spec/10_state.md R20, R24, spec/20_memory.md R36,
spec/40_fetch_decode.md R47, spec/60_exceptions.md R94, spec/70_reset_and_hazards.md R97, R98). -/

namespace Sys2Proof.Machine

/-- The table of R20 read backwards, which the codes' being distinct rests on. -/
def statusOfCode : Nat → Status
  | 0 => .idle
  | 1 => .running
  | 2 => .halted .ok
  | 3 => .halted .unknownOpcode
  | 4 => .halted .outOfRange
  | _ => .halted .divByZero

theorem statusOfCode_code (x : Status) : statusOfCode x.code = x := by
  rcases x with _ | _ | ⟨_ | _ | _ | _⟩ <;> rfl

theorem two_le_code (why : HaltReason) : 2 ≤ why.code := by cases why <;> decide

/-- Settles O14: the codes are read off the table of R20, which is one to one. -/
theorem statusCodes : Obligations.StatusCodes := by
  refine ⟨rfl, rfl, rfl, rfl, rfl, rfl, fun x y => ⟨?distinct, ?halted⟩⟩
  case distinct => exact fun h => Function.LeftInverse.injective statusOfCode_code h
  case halted =>
    cases x with
    | idle => simp [Status.code]
    | running => simp [Status.code]
    | halted why => exact iff_of_true (two_le_code why) ⟨why, rfl⟩

/-- Settles O15: both are the reset state on everything that the statement names. -/
theorem resetValues : Obligations.ResetValues := by
  intro s t ht
  obtain rfl | rfl : t = State.reset ∨ t = hostReset s := by simpa using ht
  all_goals exact ⟨rfl, rfl, reg_reset, rfl, readByte_reset, rfl, rfl⟩

/-- Settles O16: the accepted load writes a range of cells from 0, the refused one only the reply. -/
theorem loadWritesImage : Obligations.LoadWritesImage := by
  intro s bytes
  refine ⟨?accepted, hostLoad_refused⟩
  case accepted =>
    intro hs hlen
    rw [hostLoad_accepted hs hlen]
    exact ⟨fun _ => readByte_loadImage_same hlen, fun _ => readByte_loadImage_other, rfl⟩

/-- Settles O17: the branches of `run()`, and the status after a reset. -/
theorem runAndResetTransitions : Obligations.RunAndResetTransitions :=
  fun _ => ⟨hostRun_idle, hostRun_refused, rfl⟩

/-- Settles O18: outside IDLE the host's load and run are refused. -/
theorem haltedIsFinal : Obligations.HaltedIsFinal := by
  intro s why hs
  have hne : s.status ≠ .idle := by simp [hs]
  rw [step_halted hs]
  refine ⟨hostStep_nil _, ?load, ?run, ?reset⟩
  case load =>
    intro bytes rest hq
    rw [hostStep_cons _ hq]
    exact congrArg Host.Outcome.next (hostLoad_refused (.inl hne))
  case run =>
    intro rest hq
    rw [hostStep_cons _ hq]
    exact congrArg Host.Outcome.next (hostRun_refused hne)
  case reset => exact fun rest hq => ⟨_, hostStep_cons _ hq, rfl, rfl⟩

/-- Settles O57: each of the host's actions in IDLE, taken from the head of the queue. -/
theorem idleActsOnlyForTheHost : Obligations.IdleActsOnlyForTheHost := by
  intro s hs
  refine ⟨(step_idle hs).trans ∘ hostStep_nil _, ?load, ?loadRefused, fun _ => step_idle_run hs, ?reset⟩
  case load =>
    exact fun bytes rest hq hlen => ⟨_, step_idle_load hs hq hlen, fun _ => readByte_loadImage_same hlen,
      fun _ => readByte_loadImage_other, rfl⟩
  case loadRefused =>
    intro bytes rest hq hlen
    rw [step_idle hs, hostStep_cons _ hq]
    exact congrArg Host.Outcome.next (hostLoad_refused (.inr hlen))
  case reset =>
    exact fun rest hq => ⟨_, (step_idle hs).trans (hostStep_cons _ hq), rfl, rfl, rfl, rfl, reg_reset, readByte_reset,
      rfl, rfl, rfl, rfl⟩

/-- A load that fits and a run, queued in IDLE, take two steps; the run leaves the loaded memory alone (R98). -/
theorem core_run_load_run {s : State} {image : List Byte} (hs : s.status = .idle) (hlen : image.length ≤ 256)
    (hq : s.hostQueue = [.load image, .run]) :
    Host.Core.run core 2 s =
      .next (reply (reply { loadImage s image with status := .running, hostQueue := [] } .accepted) .accepted) := by
  rw [core_run_next 1 (step_idle_load hs hq hlen)]
  exact core_run_next 0 (step_idle_run hs rfl)

/-- Settles O19: the load and the run from the reset state, whose cells all read 0x00. -/
theorem bootStartsTheImage : Obligations.BootStartsTheImage := by
  intro image hlen
  refine ⟨_, core_run_load_run rfl hlen rfl, rfl, rfl, rfl, ?image, ?rest⟩
  case image => exact fun _ => readByte_loadImage_same hlen
  case rest => exact fun _ => readByte_loadImage_other

end Sys2Proof.Machine
end

section
/-! Proofs of the statements about the invariant (spec/10_state.md R19, R20, R24, spec/20_memory.md R25,
spec/41_load_print_halt.md R55, spec/60_exceptions.md R90). -/

namespace Sys2Proof.Machine

variable {s t : State}

/-! ## Parts of the invariant -/

theorem legalFlags_compareFlags (x y : Byte) : LegalFlags (compareFlags x y) := by
  obtain h | h | h := Nat.lt_trichotomy x.toNat y.toNat
  · rw [compareFlags_of_lt h]
    exact .inr (.inr (.inr rfl))
  · rw [compareFlags_of_eq h]
    exact .inr (.inl rfl)
  · rw [compareFlags_of_gt h]
    exact .inr (.inr (.inl rfl))

/-- Outside IDLE nothing is asked of a fresh machine. -/
theorem idleIsFresh_of_ne (h : s.status ≠ .idle) : IdleIsFresh s := fun hi => absurd hi h

/-- Without the zero-divisor report and its fault, the report is where it belongs. -/
theorem reportIsLast_of_notMem (hout : .divByZero ∉ s.out) (hst : s.status ≠ .halted .divByZero) : ReportIsLast s :=
  ⟨iff_of_false hout hst, fun h => absurd h hst⟩

/-- A report at the end of a port that held none, with its fault, is where it belongs. -/
theorem reportIsLast_append (hout : .divByZero ∉ s.out) (ht : t.out = s.out ++ [.divByZero])
    (hst : t.status = .halted .divByZero) : ReportIsLast t :=
  ⟨iff_of_true (by simp [ht]) hst, fun _ => ⟨s.out, ht, hout⟩⟩

theorem ReportIsLast.notMem (h : ReportIsLast s) (hst : s.status ≠ .halted .divByZero) : .divByZero ∉ s.out :=
  mt h.1.1 hst

/-- An instruction of a RUNNING machine keeps the report in its place: only MOD's halt adds one (R72, R90). -/
theorem reportIsLast_exec {i : Instr} (hs : s.status = .running) (hr : ReportIsLast s) (h : exec i s = .next t) :
    ReportIsLast t := by
  have hne : s.status ≠ .halted .divByZero := by simp [hs]
  have hout := hr.notMem hne
  obtain ⟨ho, hst⟩ | ⟨d, -, ho, hst⟩ | ⟨d, r, -, -, ho, hst⟩ := (effect_of_exec h).out_cases
  · exact reportIsLast_of_notMem (ho ▸ hout) (mt hst hne)
  · exact reportIsLast_of_notMem (by simp [ho, hout]) (hst ▸ hne)
  · exact reportIsLast_append hout ho hst

/-! ## Every operation keeps the invariant -/

/-- An instruction of a RUNNING machine keeps the invariant. -/
theorem inv_exec {i : Instr} (hs : s.status = .running) (hinv : Inv s) (h : exec i s = .next t) : Inv t := by
  obtain ⟨hmem, hmap, hfl, -, hreport⟩ := hinv
  have he := effect_of_exec h
  refine ⟨?mem, ?map, ?flags, ?fresh, reportIsLast_exec hs hreport h⟩
  case mem =>
    obtain ⟨-, ht, -⟩ | ⟨-, -, v, p, rfl⟩ := he.push_cases
    · rwa [ht]
    · exact wf_pushByte v hmem
  case map => rwa [he.hostSide.2.2]
  case flags =>
    obtain ht | ⟨x, y, ht⟩ := he.fl_cases
    · rwa [ht]
    · rw [ht]
      exact legalFlags_compareFlags x y
  case fresh =>
    obtain ht | ⟨why, ht⟩ := exec_running_or_halted hs h
    all_goals exact idleIsFresh_of_ne (by simp [ht])

/-- The unknown-opcode halt of a RUNNING machine keeps the invariant. -/
theorem inv_unknownOpcode (hs : s.status = .running) (hinv : Inv s) :
    Inv { fetch s with status := .halted .unknownOpcode } := by
  obtain ⟨hmem, hmap, hfl, -, hreport⟩ := hinv
  exact ⟨hmem, hmap, hfl, idleIsFresh_of_ne nofun, reportIsLast_of_notMem (hreport.notMem (by simp [hs])) nofun⟩

/-- A reset gives the reset values whatever the state was, and keeps the map (R97). -/
theorem inv_hostReset (hmap : s.params.opcodes.wf = true) : Inv (hostReset s) :=
  ⟨rfl, hmap, .inl rfl, fun _ => ⟨rfl, rfl, rfl, rfl, rfl⟩, reportIsLast_of_notMem List.not_mem_nil nofun⟩

/-- A load changes memory alone, and keeps its canonical form (R36). -/
theorem inv_hostLoad (bytes : List Byte) (hinv : Inv s) : Inv (hostLoad bytes s) := by
  obtain ⟨hmem, hrest⟩ := hinv
  by_cases h : s.status ≠ .idle ∨ 256 < bytes.length
  · rw [hostLoad_refused h]
    exact ⟨hmem, hrest⟩
  · obtain ⟨hs, hlen⟩ := not_or.1 h
    rw [hostLoad_accepted (not_not.1 hs) (Nat.not_lt.1 hlen)]
    exact ⟨Memory.wf_memWriteFrom bytes ((Nat.zero_add _).trans_le (Nat.not_lt.1 hlen)) hmem, hrest⟩

/-- `run()` takes a fresh machine out of IDLE with an empty output port (R47). -/
theorem inv_hostRun (hinv : Inv s) : Inv (hostRun s) := by
  by_cases hs : s.status = .idle
  · obtain ⟨hmem, hmap, hfl, -, hreport⟩ := hinv
    rw [hostRun_idle hs]
    exact ⟨hmem, hmap, hfl, idleIsFresh_of_ne nofun, reportIsLast_of_notMem (hreport.notMem (by simp [hs])) nofun⟩
  · rw [hostRun_refused hs]
    exact hinv

theorem inv_hostAct (act : HostAction) (hinv : Inv s) : Inv (hostAct act s) := by
  cases act with
  | reset => exact inv_hostReset hinv.2.1
  | load bytes => exact inv_hostLoad bytes hinv
  | run => exact inv_hostRun hinv

/-- Settles O20: the default map is legal, and the rest are the reset values. -/
theorem invAtReset : Obligations.InvAtReset :=
  ⟨rfl, legalAddi_opcAddi, .inl rfl, fun _ => ⟨rfl, rfl, rfl, rfl, rfl⟩,
    reportIsLast_of_notMem List.not_mem_nil nofun⟩

/-- Settles O21: a step is an instruction, the unknown-opcode halt or an action of the host, and the invariant names
neither the latches nor the host's side. -/
theorem invKeptByStep : Obligations.InvKeptByStep := by
  intro s t hinv h
  by_cases hs : s.status = .running
  · obtain ⟨i, rest, -, hi⟩ | ⟨-, rfl⟩ := step_running_cases hs h
    · exact inv_exec (s := fetch s) hs hinv hi
    · exact inv_unknownOpcode hs hinv
  · obtain ⟨act, rest, -, rfl⟩ := step_not_running_cases hs h
    exact inv_hostAct (s := { s with hostQueue := rest }) act hinv

end Sys2Proof.Machine
end

section
/-! Proof of the statement about SP along a run (spec/10_state.md R18). -/

namespace Sys2Proof.Machine

variable {s t : State}

/-- Whether the fetched instruction pushes, for a RUNNING machine that decodes it. -/
theorem pushesNext_of_decode {i : Instr} {rest : List Byte} (hs : s.status = .running)
    (hd : decode s.params.opcodes (fetchBytes s) = .ok (i, rest)) :
    pushesNext s = true ↔ i.WellFormed = true ∧ (i.op = .push ∨ i.op = .call) := by
  simp [pushesNext, hs, hd]

theorem pushesNext_of_lookup_eq_none (hl : s.params.opcodes.lookup (readByte s (pcPlus s 0)) = none) :
    pushesNext s = false := by
  cases hs : s.status <;> simp [pushesNext, hs, decode, fetchBytes, hl]

theorem pushCount_succ (k : Nat) (h : step s = .next t) :
    pushCount (k + 1) s = (if pushesNext s then 1 else 0) + pushCount k t := by
  simp only [pushCount, h]

/-- A step of a RUNNING machine moves SP by one downward exactly when it pushes (R17, R18). -/
theorem toNat_sp_step (hs : s.status = .running) (h : step s = .next t) :
    t.sp.toNat = (s.sp.toNat + 255 * (if pushesNext s then 1 else 0)) % 256 := by
  have hsp : s.sp.toNat < 256 := s.sp.isLt
  obtain ⟨i, rest, hd, hi⟩ | ⟨hl, rfl⟩ := step_running_cases hs h
  · obtain ⟨ht, -, hno⟩ | ⟨hop, hw, v, p, rfl⟩ := (effect_of_exec hi).push_cases
    · rw [if_neg (mt (pushesNext_of_decode hs hd).1 hno), ht]
      exact (Nat.mod_eq_of_lt hsp).symm
    · rw [if_pos ((pushesNext_of_decode hs hd).2 ⟨hw, hop⟩)]
      exact toNat_pushAddress (fetch s)
  · rw [pushesNext_of_lookup_eq_none hl]
    exact (Nat.mod_eq_of_lt hsp).symm

/-- Settles O29: by induction on the number of steps; with nothing queued only a RUNNING machine steps. -/
theorem spCountsPushes : Obligations.SpCountsPushes := by
  intro k
  induction k with
  | zero =>
    intro s t _ h
    cases h
    exact (Nat.mod_eq_of_lt s.sp.isLt).symm
  | succ k ih =>
    intro s u hq h
    obtain ⟨t, hst, hrun⟩ := core_run_cases h
    have hs : s.status = .running := by
      by_contra hs
      obtain ⟨act, rest, hcons, -⟩ := step_not_running_cases hs hst
      cases hq.symm.trans hcons
    have hqt : t.hostQueue = [] := (step_running_hostSide hs hst).1.trans hq
    rw [ih t u hqt hrun, toNat_sp_step hs hst, pushCount_succ k hst]
    omega

end Sys2Proof.Machine
end
